-- ==== Sys2Proof/Word.lean ====
section
/-! DEFINITION. The word types of the block: a byte and a CPU address (spec/00_scope.md R4, R5). -/

namespace Sys2Proof

/-- A byte is 8 bits (R5). -/
abbrev Byte := BitVec 8

/-- A CPU address is 16 bits (R4). -/
abbrev Addr := BitVec 16

end Sys2Proof
end

