-- ==== Sys2Proof/Config.lean ====
section
/-! DEFINITION. The parameters of the block (spec/00_scope.md R4): the fixed ones, and the OPEN model arguments as
constants with no body, so that no proof can see their values (logs 2, 3, 5). -/

namespace Sys2Proof

/-- `ROM_OOB_POLICY` (R4, R56): what a ROM read beyond the image does. -/
inductive RomOobPolicy where
  /-- the read raises `RomOutOfRange` -/
  | error
  /-- the read returns the byte at the index modulo the image's length -/
  | wrap
  /-- R4's "another named policy" (`Clamp` among them, which the spec leaves undefined): the read returns a byte the
  model leaves free (DESIGN CHOICE, log 5) -/
  | other
  deriving DecidableEq, Repr, Inhabited

/-- The reset value of `pc` (R28). -/
def Config.entryPoint : Addr := 0x0100

/-- The size of the work RAM in bytes (R4, R25). -/
def Config.wramSize : Nat := 8192

/-- `A_RESET` (R29): the reset value of register `a`, any 8-bit value (log 2). -/
opaque Config.aReset : Byte

/-- `WRAM_INIT` (R31): the initial byte of each work-RAM index (log 3). -/
opaque Config.wramInit : Nat → Byte

/-- `ROM_OOB_POLICY` of the System that reset makes (R56: it is an open argument; log 5). -/
opaque Config.romOobPolicy : RomOobPolicy

/-- What a read beyond the image returns under a policy the spec does not define (R56): a free byte, which may depend on
the image's bytes and length, the CPU address and the bank (log 5). -/
opaque Config.romOtherByte : List Host.Cell → Nat → Addr → BitVec 7 → Byte

end Sys2Proof
end

