-- ==== Sys2Proof/Syntax.lean ====
section
/-! DEFINITION. The instructions, one constructor per row of spec/opcode_table.json, and the assembler notation of
spec/30_encoding.md R95. -/

namespace Sys2Proof

/-- The seven 8-bit registers an instruction can name (spec/10_state.md R11, R13); `f` is never an operand. -/
inductive Reg where
  | b | c | d | e | h | l | a
  deriving DecidableEq, Repr

/-- The 80 implemented instructions (spec/30_encoding.md R90). `n` is the 8-bit immediate (R86), `nn` the 16-bit one
(R87). `Mem` marks a memory operand: `ldBMemHL` is `LD B,[HL]`, `ldAMemC` is `LD A,[C]` while `ldAC` is `LD A,C`. -/
inductive Instr where
  -- `LD r,r'` (spec/40_ld_r_r.md)
  | ldBB
  | ldBC
  | ldBD
  | ldBE
  | ldBH
  | ldBL
  | ldBA
  | ldCB
  | ldCC
  | ldCD
  | ldCE
  | ldCH
  | ldCL
  | ldCA
  | ldDB
  | ldDC
  | ldDD
  | ldDE
  | ldDH
  | ldDL
  | ldDA
  | ldEB
  | ldEC
  | ldED
  | ldEE
  | ldEH
  | ldEL
  | ldEA
  | ldHB
  | ldHC
  | ldHD
  | ldHE
  | ldHH
  | ldHL
  | ldHA
  | ldLB
  | ldLC
  | ldLD
  | ldLE
  | ldLH
  | ldLL
  | ldLA
  | ldAB
  | ldAC
  | ldAD
  | ldAE
  | ldAH
  | ldAL
  | ldAA
  -- `LD r,n` (spec/41_ld_r_n.md)
  | ldBN (n : Byte)
  | ldCN (n : Byte)
  | ldDN (n : Byte)
  | ldEN (n : Byte)
  | ldHN (n : Byte)
  | ldLN (n : Byte)
  | ldAN (n : Byte)
  -- `LD r,[HL]` (spec/42_ld_hl_indirect.md)
  | ldBMemHL
  | ldCMemHL
  | ldDMemHL
  | ldEMemHL
  | ldHMemHL
  | ldLMemHL
  | ldAMemHL
  -- `LD [HL],r` (spec/42_ld_hl_indirect.md)
  | ldMemHLB
  | ldMemHLC
  | ldMemHLD
  | ldMemHLE
  | ldMemHLH
  | ldMemHLL
  | ldMemHLA
  -- `LD [HL],n`
  | ldMemHLN (n : Byte)
  -- through `BC` and `DE` (spec/43_ld_bc_de_indirect.md)
  | ldMemBCA
  | ldAMemBC
  | ldMemDEA
  | ldAMemDE
  -- `JP nn` (spec/44_jp_nn.md)
  | jp (nn : Addr)
  -- absolute (spec/45_ld_abs_a.md)
  | ldMemNNA (nn : Addr)
  | ldAMemNN (nn : Addr)
  -- high page (spec/46_ld_highpage_c.md)
  | ldMemCA
  | ldAMemC
  deriving DecidableEq, Repr

/-! The four register-indexed classes, so that a statement can name a whole class (R84's fields `ddd` and `sss`). -/

/-- `LD dst,src` between registers (R100 to R148). -/
def Instr.ldRR : Reg → Reg → Instr
  | .b, .b => .ldBB
  | .b, .c => .ldBC
  | .b, .d => .ldBD
  | .b, .e => .ldBE
  | .b, .h => .ldBH
  | .b, .l => .ldBL
  | .b, .a => .ldBA
  | .c, .b => .ldCB
  | .c, .c => .ldCC
  | .c, .d => .ldCD
  | .c, .e => .ldCE
  | .c, .h => .ldCH
  | .c, .l => .ldCL
  | .c, .a => .ldCA
  | .d, .b => .ldDB
  | .d, .c => .ldDC
  | .d, .d => .ldDD
  | .d, .e => .ldDE
  | .d, .h => .ldDH
  | .d, .l => .ldDL
  | .d, .a => .ldDA
  | .e, .b => .ldEB
  | .e, .c => .ldEC
  | .e, .d => .ldED
  | .e, .e => .ldEE
  | .e, .h => .ldEH
  | .e, .l => .ldEL
  | .e, .a => .ldEA
  | .h, .b => .ldHB
  | .h, .c => .ldHC
  | .h, .d => .ldHD
  | .h, .e => .ldHE
  | .h, .h => .ldHH
  | .h, .l => .ldHL
  | .h, .a => .ldHA
  | .l, .b => .ldLB
  | .l, .c => .ldLC
  | .l, .d => .ldLD
  | .l, .e => .ldLE
  | .l, .h => .ldLH
  | .l, .l => .ldLL
  | .l, .a => .ldLA
  | .a, .b => .ldAB
  | .a, .c => .ldAC
  | .a, .d => .ldAD
  | .a, .e => .ldAE
  | .a, .h => .ldAH
  | .a, .l => .ldAL
  | .a, .a => .ldAA

/-- `LD dst,n` (R150 to R156). -/
def Instr.ldRN : Reg → Byte → Instr
  | .b, n => .ldBN n
  | .c, n => .ldCN n
  | .d, n => .ldDN n
  | .e, n => .ldEN n
  | .h, n => .ldHN n
  | .l, n => .ldLN n
  | .a, n => .ldAN n

/-- `LD dst,[HL]` (R160 to R166). -/
def Instr.ldRMemHL : Reg → Instr
  | .b => .ldBMemHL
  | .c => .ldCMemHL
  | .d => .ldDMemHL
  | .e => .ldEMemHL
  | .h => .ldHMemHL
  | .l => .ldLMemHL
  | .a => .ldAMemHL

/-- `LD [HL],src` (R167 to R173). -/
def Instr.ldMemHLR : Reg → Instr
  | .b => .ldMemHLB
  | .c => .ldMemHLC
  | .d => .ldMemHLD
  | .e => .ldMemHLE
  | .h => .ldMemHLH
  | .l => .ldMemHLL
  | .a => .ldMemHLA

/-- An operand as the assembler notation of R95 writes it; a literal is a number, which may be too large (WellFormed.lean). -/
inductive Operand where
  /-- a register name -/
  | reg (r : Reg)
  /-- an 8-bit literal `n` -/
  | imm (n : Nat)
  | memHL
  | memBC
  | memDE
  /-- `[nn]`, a 16-bit literal address -/
  | memNN (nn : Nat)
  /-- `[C]`, the byte at 0xFF00 + c -/
  | memC
  deriving DecidableEq, Repr

/-- One line of assembler text (R95): a load with its destination first, or the jump. -/
inductive Source where
  | ld (dst src : Operand)
  | jp (nn : Nat)
  deriving DecidableEq, Repr

/-- The notation of each instruction (R95, R96: there is no other spelling). -/
def Instr.source : Instr → Source
  | .ldMemBCA => .ld .memBC (.reg .a)
  | .ldBN n => .ld (.reg .b) (.imm n.toNat)
  | .ldAMemBC => .ld (.reg .a) .memBC
  | .ldCN n => .ld (.reg .c) (.imm n.toNat)
  | .ldMemDEA => .ld .memDE (.reg .a)
  | .ldDN n => .ld (.reg .d) (.imm n.toNat)
  | .ldAMemDE => .ld (.reg .a) .memDE
  | .ldEN n => .ld (.reg .e) (.imm n.toNat)
  | .ldHN n => .ld (.reg .h) (.imm n.toNat)
  | .ldLN n => .ld (.reg .l) (.imm n.toNat)
  | .ldMemHLN n => .ld .memHL (.imm n.toNat)
  | .ldAN n => .ld (.reg .a) (.imm n.toNat)
  | .ldBB => .ld (.reg .b) (.reg .b)
  | .ldBC => .ld (.reg .b) (.reg .c)
  | .ldBD => .ld (.reg .b) (.reg .d)
  | .ldBE => .ld (.reg .b) (.reg .e)
  | .ldBH => .ld (.reg .b) (.reg .h)
  | .ldBL => .ld (.reg .b) (.reg .l)
  | .ldBMemHL => .ld (.reg .b) .memHL
  | .ldBA => .ld (.reg .b) (.reg .a)
  | .ldCB => .ld (.reg .c) (.reg .b)
  | .ldCC => .ld (.reg .c) (.reg .c)
  | .ldCD => .ld (.reg .c) (.reg .d)
  | .ldCE => .ld (.reg .c) (.reg .e)
  | .ldCH => .ld (.reg .c) (.reg .h)
  | .ldCL => .ld (.reg .c) (.reg .l)
  | .ldCMemHL => .ld (.reg .c) .memHL
  | .ldCA => .ld (.reg .c) (.reg .a)
  | .ldDB => .ld (.reg .d) (.reg .b)
  | .ldDC => .ld (.reg .d) (.reg .c)
  | .ldDD => .ld (.reg .d) (.reg .d)
  | .ldDE => .ld (.reg .d) (.reg .e)
  | .ldDH => .ld (.reg .d) (.reg .h)
  | .ldDL => .ld (.reg .d) (.reg .l)
  | .ldDMemHL => .ld (.reg .d) .memHL
  | .ldDA => .ld (.reg .d) (.reg .a)
  | .ldEB => .ld (.reg .e) (.reg .b)
  | .ldEC => .ld (.reg .e) (.reg .c)
  | .ldED => .ld (.reg .e) (.reg .d)
  | .ldEE => .ld (.reg .e) (.reg .e)
  | .ldEH => .ld (.reg .e) (.reg .h)
  | .ldEL => .ld (.reg .e) (.reg .l)
  | .ldEMemHL => .ld (.reg .e) .memHL
  | .ldEA => .ld (.reg .e) (.reg .a)
  | .ldHB => .ld (.reg .h) (.reg .b)
  | .ldHC => .ld (.reg .h) (.reg .c)
  | .ldHD => .ld (.reg .h) (.reg .d)
  | .ldHE => .ld (.reg .h) (.reg .e)
  | .ldHH => .ld (.reg .h) (.reg .h)
  | .ldHL => .ld (.reg .h) (.reg .l)
  | .ldHMemHL => .ld (.reg .h) .memHL
  | .ldHA => .ld (.reg .h) (.reg .a)
  | .ldLB => .ld (.reg .l) (.reg .b)
  | .ldLC => .ld (.reg .l) (.reg .c)
  | .ldLD => .ld (.reg .l) (.reg .d)
  | .ldLE => .ld (.reg .l) (.reg .e)
  | .ldLH => .ld (.reg .l) (.reg .h)
  | .ldLL => .ld (.reg .l) (.reg .l)
  | .ldLMemHL => .ld (.reg .l) .memHL
  | .ldLA => .ld (.reg .l) (.reg .a)
  | .ldMemHLB => .ld .memHL (.reg .b)
  | .ldMemHLC => .ld .memHL (.reg .c)
  | .ldMemHLD => .ld .memHL (.reg .d)
  | .ldMemHLE => .ld .memHL (.reg .e)
  | .ldMemHLH => .ld .memHL (.reg .h)
  | .ldMemHLL => .ld .memHL (.reg .l)
  | .ldMemHLA => .ld .memHL (.reg .a)
  | .ldAB => .ld (.reg .a) (.reg .b)
  | .ldAC => .ld (.reg .a) (.reg .c)
  | .ldAD => .ld (.reg .a) (.reg .d)
  | .ldAE => .ld (.reg .a) (.reg .e)
  | .ldAH => .ld (.reg .a) (.reg .h)
  | .ldAL => .ld (.reg .a) (.reg .l)
  | .ldAMemHL => .ld (.reg .a) .memHL
  | .ldAA => .ld (.reg .a) (.reg .a)
  | .jp nn => .jp nn.toNat
  | .ldMemCA => .ld .memC (.reg .a)
  | .ldMemNNA nn => .ld (.memNN nn.toNat) (.reg .a)
  | .ldAMemC => .ld (.reg .a) .memC
  | .ldAMemNN nn => .ld (.reg .a) (.memNN nn.toNat)

end Sys2Proof
end

