-- ==== Sys2Proof/WellFormed.lean ====
section
/-! DEFINITION. Which lines of assembler text are instructions (spec/30_encoding.md R84, R86 to R88, R95). The operands of
an `Instr` have exactly the widths the encoding gives them and every value in them is legal (R86, R87), so every `Instr` is
well-formed; a line of text need not be. -/

namespace Sys2Proof

/-- An 8-bit literal (R86). -/
def byteLiteral (n : Nat) : Bool := decide (n < 256)

/-- A 16-bit literal (R87). -/
def wordLiteral (nn : Nat) : Bool := decide (nn < 65536)

/-- The operand pairs that some instruction has. `LD [HL],[HL]` has none (R92: its slot is the reserved halt encoding), and
only the accumulator moves through `[BC]`, `[DE]`, `[nn]` and `[C]` (spec/10_state.md R11). -/
def Source.wf : Source → Bool
  | .ld (.reg _) (.reg _) => true
  | .ld (.reg _) (.imm n) => byteLiteral n
  | .ld (.reg _) .memHL => true
  | .ld .memHL (.reg _) => true
  | .ld .memHL (.imm n) => byteLiteral n
  | .ld .memBC (.reg .a) => true
  | .ld (.reg .a) .memBC => true
  | .ld .memDE (.reg .a) => true
  | .ld (.reg .a) .memDE => true
  | .ld (.memNN nn) (.reg .a) => wordLiteral nn
  | .ld (.reg .a) (.memNN nn) => wordLiteral nn
  | .ld .memC (.reg .a) => true
  | .ld (.reg .a) .memC => true
  | .jp nn => wordLiteral nn
  | .ld _ _ => false

/-- An instruction is well-formed when its notation is. -/
def Instr.wf (i : Instr) : Bool := i.source.wf

end Sys2Proof
end

