-- ==== Sys2Proof/Decode.lean ====
section
/-! DEFINITION. The decoder, total on any bytes, and the encoder (spec/30_encoding.md). The opcode byte values are the
spec's decision D1, marked there as general knowledge (R85; PRESUMED, log 6). -/

namespace Sys2Proof

/-! ## The opcode map -/

/-- An entry of the opcode table: the instruction and with it its format (R80: OP, OP_N, OP_NN). -/
inductive Entry where
  | op (i : Instr)
  | opN (mk : Byte → Instr)
  | opNN (mk : Addr → Instr)

/-- How many operand bytes follow the opcode (R81 to R83). -/
def Entry.operandBytes : Entry → Nat
  | .op _ => 0
  | .opN _ => 1
  | .opNN _ => 2

/-! The 80 implemented opcodes of R90, one list per row of its map. -/

/-- Row 0x of R90. -/
def opcodeRow0x : List (Byte × Entry) :=
  [(0x02, .op .ldMemBCA), (0x06, .opN .ldBN), (0x0A, .op .ldAMemBC), (0x0E, .opN .ldCN)]

/-- Row 1x of R90. -/
def opcodeRow1x : List (Byte × Entry) :=
  [(0x12, .op .ldMemDEA), (0x16, .opN .ldDN), (0x1A, .op .ldAMemDE), (0x1E, .opN .ldEN)]

/-- Row 2x of R90. -/
def opcodeRow2x : List (Byte × Entry) :=
  [(0x26, .opN .ldHN), (0x2E, .opN .ldLN)]

/-- Row 3x of R90. -/
def opcodeRow3x : List (Byte × Entry) :=
  [(0x36, .opN .ldMemHLN), (0x3E, .opN .ldAN)]

/-- Row 4x of R90. -/
def opcodeRow4x : List (Byte × Entry) :=
  [(0x40, .op .ldBB), (0x41, .op .ldBC), (0x42, .op .ldBD), (0x43, .op .ldBE),
   (0x44, .op .ldBH), (0x45, .op .ldBL), (0x46, .op .ldBMemHL), (0x47, .op .ldBA),
   (0x48, .op .ldCB), (0x49, .op .ldCC), (0x4A, .op .ldCD), (0x4B, .op .ldCE),
   (0x4C, .op .ldCH), (0x4D, .op .ldCL), (0x4E, .op .ldCMemHL), (0x4F, .op .ldCA)]

/-- Row 5x of R90. -/
def opcodeRow5x : List (Byte × Entry) :=
  [(0x50, .op .ldDB), (0x51, .op .ldDC), (0x52, .op .ldDD), (0x53, .op .ldDE),
   (0x54, .op .ldDH), (0x55, .op .ldDL), (0x56, .op .ldDMemHL), (0x57, .op .ldDA),
   (0x58, .op .ldEB), (0x59, .op .ldEC), (0x5A, .op .ldED), (0x5B, .op .ldEE),
   (0x5C, .op .ldEH), (0x5D, .op .ldEL), (0x5E, .op .ldEMemHL), (0x5F, .op .ldEA)]

/-- Row 6x of R90. -/
def opcodeRow6x : List (Byte × Entry) :=
  [(0x60, .op .ldHB), (0x61, .op .ldHC), (0x62, .op .ldHD), (0x63, .op .ldHE),
   (0x64, .op .ldHH), (0x65, .op .ldHL), (0x66, .op .ldHMemHL), (0x67, .op .ldHA),
   (0x68, .op .ldLB), (0x69, .op .ldLC), (0x6A, .op .ldLD), (0x6B, .op .ldLE),
   (0x6C, .op .ldLH), (0x6D, .op .ldLL), (0x6E, .op .ldLMemHL), (0x6F, .op .ldLA)]

/-- Row 7x of R90. -/
def opcodeRow7x : List (Byte × Entry) :=
  [(0x70, .op .ldMemHLB), (0x71, .op .ldMemHLC), (0x72, .op .ldMemHLD), (0x73, .op .ldMemHLE),
   (0x74, .op .ldMemHLH), (0x75, .op .ldMemHLL), (0x77, .op .ldMemHLA), (0x78, .op .ldAB),
   (0x79, .op .ldAC), (0x7A, .op .ldAD), (0x7B, .op .ldAE), (0x7C, .op .ldAH),
   (0x7D, .op .ldAL), (0x7E, .op .ldAMemHL), (0x7F, .op .ldAA)]

/-- Row Cx of R90. -/
def opcodeRowCx : List (Byte × Entry) :=
  [(0xC3, .opNN .jp)]

/-- Row Ex of R90. -/
def opcodeRowEx : List (Byte × Entry) :=
  [(0xE2, .op .ldMemCA), (0xEA, .opNN .ldMemNNA)]

/-- Row Fx of R90. -/
def opcodeRowFx : List (Byte × Entry) :=
  [(0xF2, .op .ldAMemC), (0xFA, .opNN .ldAMemNN)]

/-- The implemented opcodes with their instructions (R90). -/
def opcodeTable : List (Byte × Entry) :=
  opcodeRow0x ++ opcodeRow1x ++ opcodeRow2x ++ opcodeRow3x ++ opcodeRow4x ++ opcodeRow5x ++
    opcodeRow6x ++ opcodeRow7x ++ opcodeRowCx ++ opcodeRowEx ++ opcodeRowFx

/-- The entry of an opcode byte in a list of rows. -/
def lookupOpcode (op : Byte) : List (Byte × Entry) → Option Entry
  | [] => none
  | (k, e) :: rows => if k = op then some e else lookupOpcode op rows

/-- The table entry of an opcode byte; none for the 176 unimplemented ones (R91). The opcode byte alone selects the
instruction and its format (R89). -/
def opcodeEntry (op : Byte) : Option Entry := lookupOpcode op opcodeTable

/-! ## Byte order -/

/-- The 16-bit immediate from its two bytes, low byte first (R87, spec/20_memory.md R60). -/
def wordOfBytes (lo hi : Byte) : Addr := (hi.setWidth 16 <<< 8) ||| lo.setWidth 16

/-- The low byte of a 16-bit immediate (R83: byte 1). -/
def lowByte (nn : Addr) : Byte := nn.setWidth 8

/-- The high byte of a 16-bit immediate (R83: byte 2). -/
def highByte (nn : Addr) : Byte := (nn >>> 8).setWidth 8

/-! ## Decoding -/

/-- Why a byte sequence is no instruction. -/
inductive DecodeError where
  /-- the opcode byte is one of the 176 unimplemented values (R91) -/
  | unimplemented (opcode : Byte)
  /-- the bytes end before the instruction does -/
  | truncated
  deriving DecidableEq, Repr

/-- The result of decoding a byte sequence: an instruction and the bytes after it, or the reason there is none. -/
inductive Decoded where
  | instr (i : Instr) (rest : List Byte)
  | rejected (r : DecodeError)
  deriving DecidableEq, Repr

/-- Decode the first instruction of a byte sequence (R80 to R91). -/
def decode : List Byte → Decoded
  | [] => .rejected .truncated
  | op :: rest =>
    match opcodeEntry op, rest with
    | none, _ => .rejected (.unimplemented op)
    | some (.op i), _ => .instr i rest
    | some (.opN mk), n :: rest' => .instr (mk n) rest'
    | some (.opNN mk), lo :: hi :: rest' => .instr (mk (wordOfBytes lo hi)) rest'
    | some (.opN _), [] => .rejected .truncated
    | some (.opNN _), _ => .rejected .truncated

/-- Byte `k` of a table word (byte 0 holds bits 7 to 0). -/
def tableByte (w k : Nat) : Byte := BitVec.ofNat 8 (w >>> (8 * k))

/-- The instruction the decoder reads from a word of the opcode table, `nbits` bits wide, whose first byte is bits
7 to 0; the bits above `nbits` are zero, up to the longest instruction, three bytes. -/
def decodeTableWord (nbits w : Nat) : Option Instr :=
  let v := w % 2 ^ nbits
  match decode [tableByte v 0, tableByte v 1, tableByte v 2] with
  | .instr i _ => some i
  | .rejected _ => none

/-! ## Encoding -/

/-- The opcode byte of each instruction (R90). -/
def Instr.opcode : Instr → Byte
  | .ldMemBCA => 0x02
  | .ldBN _ => 0x06
  | .ldAMemBC => 0x0A
  | .ldCN _ => 0x0E
  | .ldMemDEA => 0x12
  | .ldDN _ => 0x16
  | .ldAMemDE => 0x1A
  | .ldEN _ => 0x1E
  | .ldHN _ => 0x26
  | .ldLN _ => 0x2E
  | .ldMemHLN _ => 0x36
  | .ldAN _ => 0x3E
  | .ldBB => 0x40
  | .ldBC => 0x41
  | .ldBD => 0x42
  | .ldBE => 0x43
  | .ldBH => 0x44
  | .ldBL => 0x45
  | .ldBMemHL => 0x46
  | .ldBA => 0x47
  | .ldCB => 0x48
  | .ldCC => 0x49
  | .ldCD => 0x4A
  | .ldCE => 0x4B
  | .ldCH => 0x4C
  | .ldCL => 0x4D
  | .ldCMemHL => 0x4E
  | .ldCA => 0x4F
  | .ldDB => 0x50
  | .ldDC => 0x51
  | .ldDD => 0x52
  | .ldDE => 0x53
  | .ldDH => 0x54
  | .ldDL => 0x55
  | .ldDMemHL => 0x56
  | .ldDA => 0x57
  | .ldEB => 0x58
  | .ldEC => 0x59
  | .ldED => 0x5A
  | .ldEE => 0x5B
  | .ldEH => 0x5C
  | .ldEL => 0x5D
  | .ldEMemHL => 0x5E
  | .ldEA => 0x5F
  | .ldHB => 0x60
  | .ldHC => 0x61
  | .ldHD => 0x62
  | .ldHE => 0x63
  | .ldHH => 0x64
  | .ldHL => 0x65
  | .ldHMemHL => 0x66
  | .ldHA => 0x67
  | .ldLB => 0x68
  | .ldLC => 0x69
  | .ldLD => 0x6A
  | .ldLE => 0x6B
  | .ldLH => 0x6C
  | .ldLL => 0x6D
  | .ldLMemHL => 0x6E
  | .ldLA => 0x6F
  | .ldMemHLB => 0x70
  | .ldMemHLC => 0x71
  | .ldMemHLD => 0x72
  | .ldMemHLE => 0x73
  | .ldMemHLH => 0x74
  | .ldMemHLL => 0x75
  | .ldMemHLA => 0x77
  | .ldAB => 0x78
  | .ldAC => 0x79
  | .ldAD => 0x7A
  | .ldAE => 0x7B
  | .ldAH => 0x7C
  | .ldAL => 0x7D
  | .ldAMemHL => 0x7E
  | .ldAA => 0x7F
  | .jp _ => 0xC3
  | .ldMemCA => 0xE2
  | .ldMemNNA _ => 0xEA
  | .ldAMemC => 0xF2
  | .ldAMemNN _ => 0xFA

/-- The operand bytes of each instruction: none, `n`, or `nn` low byte first (R81 to R83). -/
def Instr.operandBytes : Instr → List Byte
  | .ldBN n => [n]
  | .ldCN n => [n]
  | .ldDN n => [n]
  | .ldEN n => [n]
  | .ldHN n => [n]
  | .ldLN n => [n]
  | .ldMemHLN n => [n]
  | .ldAN n => [n]
  | .jp nn => [lowByte nn, highByte nn]
  | .ldMemNNA nn => [lowByte nn, highByte nn]
  | .ldAMemNN nn => [lowByte nn, highByte nn]
  | .ldMemBCA | .ldAMemBC | .ldMemDEA | .ldAMemDE | .ldBB | .ldBC | .ldBD
  | .ldBE | .ldBH | .ldBL | .ldBMemHL | .ldBA | .ldCB | .ldCC
  | .ldCD | .ldCE | .ldCH | .ldCL | .ldCMemHL | .ldCA | .ldDB
  | .ldDC | .ldDD | .ldDE | .ldDH | .ldDL | .ldDMemHL | .ldDA
  | .ldEB | .ldEC | .ldED | .ldEE | .ldEH | .ldEL | .ldEMemHL
  | .ldEA | .ldHB | .ldHC | .ldHD | .ldHE | .ldHH | .ldHL
  | .ldHMemHL | .ldHA | .ldLB | .ldLC | .ldLD | .ldLE | .ldLH
  | .ldLL | .ldLMemHL | .ldLA | .ldMemHLB | .ldMemHLC | .ldMemHLD | .ldMemHLE
  | .ldMemHLH | .ldMemHLL | .ldMemHLA | .ldAB | .ldAC | .ldAD | .ldAE
  | .ldAH | .ldAL | .ldAMemHL | .ldAA | .ldMemCA | .ldAMemC => []

/-- The bytes of an instruction at increasing addresses, opcode first (R80, spec/70_reset_and_hazards.md R260). -/
def encode (i : Instr) : List Byte := i.opcode :: i.operandBytes

/-- The length of an instruction in bytes: 1, 2 or 3 (R80, R89). -/
def Instr.length (i : Instr) : Nat := 1 + i.operandBytes.length

/-! ## Encoding by bit fields

The second description of the encoding the spec gives: the fields `op[7:6] op[5:3] op[2:0]` of R84 with the register
codes of spec/10_state.md R13. It is written without the table above. -/

/-- The 3-bit code of a register (R13). -/
def Reg.code : Reg → BitVec 3
  | .b => 0b000
  | .c => 0b001
  | .d => 0b010
  | .e => 0b011
  | .h => 0b100
  | .l => 0b101
  | .a => 0b111

/-- The code that stands for the byte at `[HL]` (R13). -/
def memHLCode : BitVec 3 := 0b110

/-- An opcode byte from its three fields (R84). -/
def opcodeOfFields (hi : BitVec 2) (mid lo : BitVec 3) : Byte := hi ++ mid ++ lo

/-- The bytes of a line of assembler text by the patterns of R84; none where no pattern admits it. -/
def Source.encode : Source → Option (List Byte)
  | .ld (.reg x) (.reg y) => some [opcodeOfFields 0b01 x.code y.code]
  | .ld (.reg x) .memHL => some [opcodeOfFields 0b01 x.code memHLCode]
  | .ld .memHL (.reg y) => some [opcodeOfFields 0b01 memHLCode y.code]
  | .ld (.reg x) (.imm n) => if n < 256 then some [opcodeOfFields 0b00 x.code 0b110, BitVec.ofNat 8 n] else none
  | .ld .memHL (.imm n) => if n < 256 then some [opcodeOfFields 0b00 memHLCode 0b110, BitVec.ofNat 8 n] else none
  | .ld .memBC (.reg .a) => some [opcodeOfFields 0b00 0b000 0b010]
  | .ld .memDE (.reg .a) => some [opcodeOfFields 0b00 0b010 0b010]
  | .ld (.reg .a) .memBC => some [opcodeOfFields 0b00 0b001 0b010]
  | .ld (.reg .a) .memDE => some [opcodeOfFields 0b00 0b011 0b010]
  | .ld .memC (.reg .a) => some [opcodeOfFields 0b11 0b100 0b010]
  | .ld (.reg .a) .memC => some [opcodeOfFields 0b11 0b110 0b010]
  | .ld (.memNN nn) (.reg .a) =>
    if nn < 65536 then some [opcodeOfFields 0b11 0b101 0b010, BitVec.ofNat 8 nn, BitVec.ofNat 8 (nn / 256)] else none
  | .ld (.reg .a) (.memNN nn) =>
    if nn < 65536 then some [opcodeOfFields 0b11 0b111 0b010, BitVec.ofNat 8 nn, BitVec.ofNat 8 (nn / 256)] else none
  | .jp nn =>
    if nn < 65536 then some [opcodeOfFields 0b11 0b000 0b011, BitVec.ofNat 8 nn, BitVec.ofNat 8 (nn / 256)] else none
  | .ld _ _ => none

end Sys2Proof
end

