-- ==== Sys2Proof/Machine/State.lean ====
section
/-! DEFINITION. The state of the block, its faults and its reset (spec/10_state.md, spec/60_exceptions.md R200). -/

namespace Sys2Proof.Machine

/-- An array of bytes as a list of (index, byte) pairs in one canonical form (`Memory.wf`, Machine/Memory.lean): indices
strictly rising, every index below the array's size, no entry equal to what an unlisted index reads as. -/
abbrev Memory := List Host.Cell

/-- What an index of the work RAM that no entry lists holds: no written byte. A read of it returns `WRAM_INIT` (R25, R31;
log 3). -/
def wramUnlisted : Option Byte := none

/-- What an index of the ROM image, below its length, that no entry lists holds: the byte 0x00. This only fixes how an image
is written down; every image can be (log 1). -/
def romUnlisted : Option Byte := some 0

/-- The MBC1 registers (R18). -/
structure Mbc1 where
  /-- `ram_gate` (R19): written, never read -/
  ramGate : Bool
  /-- `bank1` (R20): never 0 in a legal state -/
  bank1 : BitVec 5
  /-- `bank2` (R21) -/
  bank2 : BitVec 2
  /-- `mode` (R22) -/
  mode : Bool
  deriving DecidableEq, Repr

/-- The cartridge: the ROM array (R24) and the policy for reads beyond it (spec/20_memory.md R56). Constant for the life of
a System; it stands in the state because the step takes no other argument (log 1). -/
structure Cartridge where
  /-- `ROM_LEN` (R58) -/
  len : Nat
  /-- `ROM_IMAGE` -/
  cells : Memory
  /-- `ROM_OOB_POLICY` -/
  oob : RomOobPolicy
  deriving DecidableEq, Repr

/-- The state of the block (R26). The compound registers `BC`, `DE`, `HL` are views, not fields (R12). -/
structure State where
  /-- the accumulator (R10, R11) -/
  a : Byte
  /-- an opaque 8-bit register that no instruction reads or writes (R17) -/
  f : Byte
  b : Byte
  c : Byte
  d : Byte
  e : Byte
  h : Byte
  l : Byte
  /-- the program counter (R14) -/
  pc : Addr
  mbc1 : Mbc1
  /-- the bytes of work RAM written since construction, by local index 0 to 8191 (R25) -/
  wram : Memory
  cart : Cartridge
  /-- the value the last completed step returned (spec/30_encoding.md R97). The model's own field, not state of the block:
  nothing reads it (log 8) -/
  cycles : BitVec 8
  deriving DecidableEq, Repr

/-- The kind of a Bus access, as `BusUnmapped` names it; every fetch is a read (spec/60_exceptions.md R202). -/
inductive AccessKind where
  | read
  | write
  deriving DecidableEq, Repr

/-- The faults (spec/60_exceptions.md R200). A fault ends the run with its payload and saves nothing (R207); the spec
describes each, so stopping with it is what the hardware description says: safe. -/
inductive Fault where
  /-- F1: raised by the step when the fetched opcode byte is one of the 176 unimplemented ones; `pc` is the address it was
  fetched at (R201). It is what the spec says happens: safe, for the byte 0x00 too, which follows decision D8 (log 6). -/
  | decodeFault (opcode : Byte) (pc : Addr)
  /-- F2: raised by the Bus for an address outside 0x0000 to 0x7FFF and 0xC000 to 0xDFFF (R202). It
  is what the spec says happens: safe. -/
  | busUnmapped (addr : Addr) (kind : AccessKind)
  /-- F3: raised by the MBC1 for a write outside 0x0000 to 0x7FFF; the Bus never forwards one (R203). It
  is what the spec says happens: safe. -/
  | controllerNotOwned (addr : Addr)
  /-- F4: raised by the bank resolution for an address outside 0x0000 to 0x7FFF; the Bus never asks about one. Reading the
  source's "programming error" as a fault is decision D11 (R204); safe. -/
  | controllerBadQuery (addr : Addr)
  /-- F5: raised by the ROM read path beyond the image under the policy `error`, and under `wrap` with an empty image
  (R205); under the policy `error`, decision D3's recommended value, it is safe. -/
  | romOutOfRange (addr : Addr) (bank : BitVec 7) (phys : BitVec 21)
  deriving DecidableEq, Repr

/-- Why the model has no meaning for an instruction. -/
inductive Refusal where
  /-- Raised by no instruction: all 80 are modelled. It would be safe. -/
  | notModelled (mnemonic : String)
  deriving DecidableEq, Repr

/-- The result of a transaction: a value, or the fault it raises (spec/00_scope.md R8). -/
inductive Res (α : Type) where
  | ok (v : α)
  | fault (f : Fault)
  deriving DecidableEq, Repr

/-- The MBC1 at reset (R30, the spec's own decision D4; log 4). -/
def Mbc1.reset : Mbc1 := { ramGate := false, bank1 := 1, bank2 := 0, mode := false }

/-- No cartridge image loaded yet (log 1), with the open policy (log 5). -/
def Cartridge.empty : Cartridge := { len := 0, cells := [], oob := Config.romOobPolicy }

/-- The machine right after reset (R33). A program is loaded from outside: `State.construct` (Machine/System.lean) is the
construction with an image, `State.withFetchWord` (Machine/Step.lean) stands for loading one instruction (log 1). -/
def State.reset : State where
  a := Config.aReset
  f := 0
  b := 0
  c := 0
  d := 0
  e := 0
  h := 0
  l := 0
  pc := Config.entryPoint
  mbc1 := Mbc1.reset
  wram := []
  cart := Cartridge.empty
  cycles := 0

end Sys2Proof.Machine
end

