-- ==== Sys2Proof/Machine/Mbc1.lean ====
section
/-! DEFINITION. The MBC1 bank controller: write decode and active-bank resolution (spec/20_memory.md sections 3 and 4). -/

namespace Sys2Proof.Machine

/-- `ram_gate` from a written byte: the low nibble is 0b1010 (R48). -/
def ramGateOf (v : Byte) : Bool := decide (v &&& 0xF = 0b1010)

/-- `bank1` from a written byte: the low five bits, 0 replaced by 1 (R49). -/
def bank1Of (v : Byte) : BitVec 5 :=
  let t := v &&& 0x1F
  if t = 0 then 1 else t.setWidth 5

/-- `bank2` from a written byte: the low two bits (R50). -/
def bank2Of (v : Byte) : BitVec 2 := (v &&& 0x3).setWidth 2

/-- `mode` from a written byte: the low bit (R51). -/
def modeOf (v : Byte) : Bool := decide (v &&& 0x1 = 1)

/-- A write handed to the controller: exactly one field changes, chosen by the raw address (R47); outside its range it is
a fault (R52). -/
def mbc1Write (m : Mbc1) (addr : Addr) (v : Byte) : Res Mbc1 :=
  if addr.toNat ≤ 0x1FFF then .ok { m with ramGate := ramGateOf v }
  else if addr.toNat ≤ 0x3FFF then .ok { m with bank1 := bank1Of v }
  else if addr.toNat ≤ 0x5FFF then .ok { m with bank2 := bank2Of v }
  else if addr.toNat ≤ 0x7FFF then .ok { m with mode := modeOf v }
  else .fault (.controllerNotOwned addr)

/-- A sequence of writes handed to the controller one after another; the first fault ends it. -/
def mbc1WriteAll (m : Mbc1) : List (Addr × Byte) → Res Mbc1
  | [] => .ok m
  | (addr, v) :: ws =>
    match mbc1Write m addr v with
    | .ok m' => mbc1WriteAll m' ws
    | .fault f => .fault f

/-- The ROM bank that backs a CPU address (R53). -/
def activeRomBank (m : Mbc1) (addr : Addr) : Res (BitVec 7) :=
  if addr.toNat ≤ 0x3FFF then .ok (if m.mode then m.bank2.setWidth 7 <<< 5 else 0)
  else if addr.toNat ≤ 0x7FFF then .ok ((m.bank2.setWidth 7 <<< 5) + m.bank1.setWidth 7)
  else .fault (.controllerBadQuery addr)

/-- The physical ROM index of an address in a bank: the bank times 16 KiB plus the offset within the window (R55, R58;
decision D2, log 7). -/
def physIndex (bank : BitVec 7) (addr : Addr) : BitVec 21 :=
  (bank.setWidth 21 <<< 14) + (addr &&& 0x3FFF).setWidth 21

end Sys2Proof.Machine
end

