-- ==== Sys2Proof/Machine/Memory.lean ====
section
/-! DEFINITION. Byte arrays as lists of cells: reading, writing, the canonical form. -/

namespace Sys2Proof.Machine

/-- The listed byte at an index. -/
def Memory.read : Memory → Nat → Option Byte
  | [], _ => none
  | (k, v) :: m, i => if k = i then some v else Memory.read m i

/-- List a byte at an index, in order, in place of an entry already there. -/
def Memory.insertCell : Memory → Nat → Byte → Memory
  | [], i, v => [(i, v)]
  | (k, w) :: m, i, v =>
    if i < k then (i, v) :: (k, w) :: m
    else if i = k then (i, v) :: m
    else (k, w) :: Memory.insertCell m i v

/-- Drop the entry at an index. -/
def Memory.removeCell : Memory → Nat → Memory
  | [], _ => []
  | (k, w) :: m, i => if k = i then Memory.removeCell m i else (k, w) :: Memory.removeCell m i

/-- Write a byte: listed, or the entry removed when the byte is what an unlisted index reads as. -/
def Memory.write (unlisted : Option Byte) (m : Memory) (i : Nat) (v : Byte) : Memory :=
  if unlisted = some v then Memory.removeCell m i else Memory.insertCell m i v

/-- The canonical form from index `lo` on: indices rising, each below `size`, no entry equal to `unlisted`. -/
def Memory.wfFrom (size : Nat) (unlisted : Option Byte) : Nat → Memory → Bool
  | _, [] => true
  | lo, (k, v) :: m =>
    decide (lo ≤ k) && decide (k < size) && decide (unlisted ≠ some v) && Memory.wfFrom size unlisted (k + 1) m

/-- The canonical form of an array of `size` bytes. -/
def Memory.wf (size : Nat) (unlisted : Option Byte) (m : Memory) : Bool := Memory.wfFrom size unlisted 0 m

/-- The byte of work RAM at a local index: the byte last written, or `WRAM_INIT` (spec/10_state.md R25, R31). -/
def wramByte (m : Memory) (i : Nat) : Byte := (Memory.read m i).getD (Config.wramInit i)

/-- Write a byte of work RAM (R25). -/
def wramWrite (m : Memory) (i : Nat) (v : Byte) : Memory := Memory.write wramUnlisted m i v

/-- The image byte at a physical index below the length (R24). -/
def Cartridge.byte (c : Cartridge) (i : Nat) : Byte := (Memory.read c.cells i).getD (romUnlisted.getD 0)

/-- Put a byte into the image, which grows to hold it. No transaction does this (spec/20_memory.md R57): it is how a
program is loaded from outside (log 1). -/
def Cartridge.load (c : Cartridge) (i : Nat) (v : Byte) : Cartridge :=
  { c with len := max c.len (i + 1), cells := Memory.write romUnlisted c.cells i v }

end Sys2Proof.Machine
end

