-- ==== Sys2Proof/Machine/Bus.lean ====
section
/-! DEFINITION. The Bus: address routing, the ROM read path and the work RAM (spec/20_memory.md sections 2 and 4). -/

namespace Sys2Proof.Machine

/-- The cartridge controller's range, 0x0000 to 0x7FFF (R41). -/
abbrev InCart (addr : Addr) : Prop := addr.toNat ≤ 0x7FFF

/-- The work RAM's range, 0xC000 to 0xDFFF (R41). -/
abbrev InWram (addr : Addr) : Prop := 0xC000 ≤ addr.toNat ∧ addr.toNat ≤ 0xDFFF

/-- The local index of a work-RAM address (R46). -/
def wramIndex (addr : Addr) : Nat := addr.toNat - 0xC000

/-- A ROM read beyond the image, by the policy (R56). -/
def romOob (c : Cartridge) (addr : Addr) (bank : BitVec 7) (phys : BitVec 21) : Res Byte :=
  match c.oob with
  | .error => .fault (.romOutOfRange addr bank phys)
  | .wrap => if c.len = 0 then .fault (.romOutOfRange addr bank phys) else .ok (c.byte (phys.toNat % c.len))
  | .other => .ok (Config.romOtherByte c.cells c.len addr bank)

/-- The ROM read path (R55). -/
def romRead (c : Cartridge) (m : Mbc1) (addr : Addr) : Res Byte :=
  match activeRomBank m addr with
  | .fault f => .fault f
  | .ok bank =>
    let phys := physIndex bank addr
    if phys.toNat < c.len then .ok (c.byte phys.toNat) else romOob c addr bank phys

/-- `BusRead` (R42): one byte, or a fault; no state changes. -/
def busRead (s : State) (addr : Addr) : Res Byte :=
  if InCart addr then romRead s.cart s.mbc1 addr
  else if InWram addr then .ok (wramByte s.wram (wramIndex addr))
  else .fault (.busUnmapped addr .read)

/-- `BusWrite` (R43): an MBC1 register write, a work-RAM store, or a fault. -/
def busWrite (s : State) (addr : Addr) (v : Byte) : Res State :=
  if InCart addr then
    match mbc1Write s.mbc1 addr v with
    | .ok m => .ok { s with mbc1 := m }
    | .fault f => .fault f
  else if InWram addr then .ok { s with wram := wramWrite s.wram (wramIndex addr) v }
  else .fault (.busUnmapped addr .write)

end Sys2Proof.Machine
end

