-- ==== Sys2Proof/Machine/Flags.lean ====
section
/-! DEFINITION. Flags (spec/10_state.md R17). `f` is an opaque 8-bit register: the spec gives its bits no meaning, names no
condition code, and no instruction reads or writes it. There is no flag computation in this generation; what every
instruction does to the flags is the one predicate below. -/

namespace Sys2Proof.Machine

/-- "Flags written: none": `f` holds in `t` what it held in `s` (R17). -/
def FlagsKept (s t : State) : Prop := t.f = s.f

end Sys2Proof.Machine
end

