-- ==== Sys2Proof/Machine/Operands.lean ====
section
/-! DEFINITION. The operand forms: registers, compound views and the high-page address (spec/10_state.md R12,
spec/30_encoding.md R86 to R88). The immediates are part of the decoded instruction. -/

namespace Sys2Proof.Machine

/-- Read a register (spec/00_scope.md R6 `x[r]`). -/
def State.reg (s : State) : Reg → Byte
  | .b => s.b
  | .c => s.c
  | .d => s.d
  | .e => s.e
  | .h => s.h
  | .l => s.l
  | .a => s.a

/-- Write a register; no other register changes (R10). -/
def State.setReg (s : State) (r : Reg) (v : Byte) : State :=
  match r with
  | .b => { s with b := v }
  | .c => { s with c := v }
  | .d => { s with d := v }
  | .e => { s with e := v }
  | .h => { s with h := v }
  | .l => { s with l := v }
  | .a => { s with a := v }

/-- The 16-bit view of a register pair: `(high << 8) + low` (R12). -/
def compound (high low : Byte) : Addr := (high.setWidth 16 <<< 8) + low.setWidth 16

/-- `BC` (R12). -/
def State.bc (s : State) : Addr := compound s.b s.c

/-- `DE` (R12). -/
def State.de (s : State) : Addr := compound s.d s.e

/-- `HL` (R12). -/
def State.hl (s : State) : Addr := compound s.h s.l

/-- The address of the form `[C]`: `0xFF00 + zext_16(x[c])` (R88). -/
def State.highPageC (s : State) : Addr := 0xFF00 + s.c.setWidth 16

end Sys2Proof.Machine
end

