-- ==== Sys2Proof/Machine/Ops.lean ====
section
/-! DEFINITION. The operations the instructions share: ending a step, fetching, moving a byte, jumping. -/

namespace Sys2Proof.Machine

/-- A fault's entry (spec/60_exceptions.md R207): the step does not complete, no state is saved, control goes nowhere, and
the outcome of the run is the fault with its payload. Nothing returns from it (R210). -/
def raiseFault (f : Fault) : Host.Outcome State Fault Refusal := .fault f

/-- A step completes and returns its cost (spec/30_encoding.md R97). -/
def complete (s : State) (cost : BitVec 8) : Host.Outcome State Fault Refusal := .next { s with cycles := cost }

/-- The result of a fetch: a value and the state after it, or a fault and the state the fetch had reached. -/
inductive Fetched (α : Type) where
  | got (v : α) (s : State)
  | raised (f : Fault) (s : State)
  deriving DecidableEq, Repr

/-- `pc` after one fetched byte: addition modulo 65536 (spec/10_state.md R15). -/
def nextPc (pc : Addr) : Addr := pc + 1

/-- `Fetch8()` (spec/00_scope.md R6): the read comes before the increment. -/
def fetch8 (s : State) : Fetched Byte :=
  match busRead s s.pc with
  | .ok v => .got v { s with pc := nextPc s.pc }
  | .fault f => .raised f s

/-- `Fetch16()` (R6): the low byte first (spec/20_memory.md R60). -/
def fetch16 (s : State) : Fetched Addr :=
  match fetch8 s with
  | .raised f s1 => .raised f s1
  | .got lo s1 =>
    match fetch8 s1 with
    | .raised f s2 => .raised f s2
    | .got hi s2 => .got (wordOfBytes lo hi) s2

/-- Fetch the instruction at `pc` (spec/30_encoding.md R97): the opcode byte, its decoding, then the operand bytes in
address order. The first fault ends it (spec/60_exceptions.md R209); `DecodeFault` carries the address of the opcode (R91)
and no byte after the opcode is read. -/
def fetchInstr (s : State) : Fetched Instr :=
  match fetch8 s with
  | .raised f s1 => .raised f s1
  | .got op s1 =>
    match opcodeEntry op with
    | none => .raised (.decodeFault op s.pc) s1
    | some (.op i) => .got i s1
    | some (.opN mk) =>
      match fetch8 s1 with
      | .raised f s2 => .raised f s2
      | .got n s2 => .got (mk n) s2
    | some (.opNN mk) =>
      match fetch16 s1 with
      | .raised f s2 => .raised f s2
      | .got nn s2 => .got (mk nn) s2

/-- The state a step has reached when it raises a fault (spec/60_exceptions.md R208): `pc` past the bytes fetched, nothing
else changed, because an instruction's only write is its last transaction. No claim about a run may rest on it (D17). -/
def stateAtFault (s : State) : State :=
  match fetchInstr s with
  | .got _ s' => s'
  | .raised _ s' => s'

/-! The effects below run at the state the fetches leave: `pc` is already past the instruction (log 9). -/

/-- `x[dst] <- x[src]; cycles = 1` (R100 to R148). -/
def copyReg (dst src : Reg) (s : State) : Host.Outcome State Fault Refusal := complete (s.setReg dst (s.reg src)) 1

/-- `x[dst] <- n; cycles = 2` (R150 to R156). -/
def loadImm (dst : Reg) (n : Byte) (s : State) : Host.Outcome State Fault Refusal := complete (s.setReg dst n) 2

/-- `v <- MemRead(addr, 1); x[dst] <- v`: on a fault the register is not written. -/
def loadByte (dst : Reg) (addr : Addr) (cost : BitVec 8) (s : State) : Host.Outcome State Fault Refusal :=
  match busRead s addr with
  | .ok v => complete (s.setReg dst v) cost
  | .fault f => raiseFault f

/-- `MemWrite(addr, 1, v)`. -/
def storeByte (addr : Addr) (v : Byte) (cost : BitVec 8) (s : State) : Host.Outcome State Fault Refusal :=
  match busWrite s addr v with
  | .ok t => complete t cost
  | .fault f => raiseFault f

/-- `pc <- nn; cycles = 4` (R190): the jump itself never faults. -/
def jumpTo (nn : Addr) (s : State) : Host.Outcome State Fault Refusal := complete { s with pc := nn } 4

end Sys2Proof.Machine
end

