-- ==== Sys2Proof/Machine/Jump.lean ====
section
/-! DEFINITION. The absolute jump (spec/44_jp_nn.md R190). -/

namespace Sys2Proof.Machine

/-- `JP nn` (R190). -/
def execJp (nn : Addr) (s : State) : Host.Outcome State Fault Refusal := jumpTo nn s

end Sys2Proof.Machine
end

