-- ==== Sys2Proof/Machine/LdAbs.lean ====
section
/-! DEFINITION. The absolute accumulator load and store (spec/45_ld_abs_a.md R195, R196). -/

namespace Sys2Proof.Machine

/-- `LD [nn],A` (R195). -/
def execLdMemNNA (nn : Addr) (s : State) : Host.Outcome State Fault Refusal := storeByte nn (s.reg .a) 4 s

/-- `LD A,[nn]` (R196). -/
def execLdAMemNN (nn : Addr) (s : State) : Host.Outcome State Fault Refusal := loadByte .a nn 4 s

end Sys2Proof.Machine
end

