-- ==== Sys2Proof/Machine/LdHighPage.lean ====
section
/-! DEFINITION. The high-page accumulator load and store through `C` (spec/46_ld_highpage_c.md R198, R199). The address is
computed here and the Bus faults on it, because this generation maps nothing there (R256). -/

namespace Sys2Proof.Machine

/-- `LD [C],A` (R198). -/
def execLdMemCA (s : State) : Host.Outcome State Fault Refusal := storeByte s.highPageC (s.reg .a) 2 s

/-- `LD A,[C]` (R199). -/
def execLdAMemC (s : State) : Host.Outcome State Fault Refusal := loadByte .a s.highPageC 2 s

end Sys2Proof.Machine
end

