-- ==== Sys2Proof/Machine/LdMemHL.lean ====
section
/-! DEFINITION. Loads and stores through `HL` (spec/42_ld_hl_indirect.md R160 to R174). -/

namespace Sys2Proof.Machine

/-- `LD B,[HL]` (R160). -/
def execLdBMemHL (s : State) : Host.Outcome State Fault Refusal := loadByte .b s.hl 2 s

/-- `LD C,[HL]` (R161). -/
def execLdCMemHL (s : State) : Host.Outcome State Fault Refusal := loadByte .c s.hl 2 s

/-- `LD D,[HL]` (R162). -/
def execLdDMemHL (s : State) : Host.Outcome State Fault Refusal := loadByte .d s.hl 2 s

/-- `LD E,[HL]` (R163). -/
def execLdEMemHL (s : State) : Host.Outcome State Fault Refusal := loadByte .e s.hl 2 s

/-- `LD H,[HL]` (R164). -/
def execLdHMemHL (s : State) : Host.Outcome State Fault Refusal := loadByte .h s.hl 2 s

/-- `LD L,[HL]` (R165). -/
def execLdLMemHL (s : State) : Host.Outcome State Fault Refusal := loadByte .l s.hl 2 s

/-- `LD A,[HL]` (R166). -/
def execLdAMemHL (s : State) : Host.Outcome State Fault Refusal := loadByte .a s.hl 2 s

/-- `LD [HL],B` (R167). -/
def execLdMemHLB (s : State) : Host.Outcome State Fault Refusal := storeByte s.hl (s.reg .b) 2 s

/-- `LD [HL],C` (R168). -/
def execLdMemHLC (s : State) : Host.Outcome State Fault Refusal := storeByte s.hl (s.reg .c) 2 s

/-- `LD [HL],D` (R169). -/
def execLdMemHLD (s : State) : Host.Outcome State Fault Refusal := storeByte s.hl (s.reg .d) 2 s

/-- `LD [HL],E` (R170). -/
def execLdMemHLE (s : State) : Host.Outcome State Fault Refusal := storeByte s.hl (s.reg .e) 2 s

/-- `LD [HL],H` (R171). -/
def execLdMemHLH (s : State) : Host.Outcome State Fault Refusal := storeByte s.hl (s.reg .h) 2 s

/-- `LD [HL],L` (R172). -/
def execLdMemHLL (s : State) : Host.Outcome State Fault Refusal := storeByte s.hl (s.reg .l) 2 s

/-- `LD [HL],A` (R173). -/
def execLdMemHLA (s : State) : Host.Outcome State Fault Refusal := storeByte s.hl (s.reg .a) 2 s

/-- `LD [HL],n` (R174). -/
def execLdMemHLN (n : Byte) (s : State) : Host.Outcome State Fault Refusal := storeByte s.hl n 3 s

end Sys2Proof.Machine
end

