-- ==== Sys2Proof/Machine/LdPair.lean ====
section
/-! DEFINITION. Accumulator loads and stores through `BC` and `DE` (spec/43_ld_bc_de_indirect.md R180 to R183). -/

namespace Sys2Proof.Machine

/-- `LD [BC],A` (R180). -/
def execLdMemBCA (s : State) : Host.Outcome State Fault Refusal := storeByte s.bc (s.reg .a) 2 s

/-- `LD A,[BC]` (R181). -/
def execLdAMemBC (s : State) : Host.Outcome State Fault Refusal := loadByte .a s.bc 2 s

/-- `LD [DE],A` (R182). -/
def execLdMemDEA (s : State) : Host.Outcome State Fault Refusal := storeByte s.de (s.reg .a) 2 s

/-- `LD A,[DE]` (R183). -/
def execLdAMemDE (s : State) : Host.Outcome State Fault Refusal := loadByte .a s.de 2 s

end Sys2Proof.Machine
end

