-- ==== Sys2Proof/Machine/LdRegImm.lean ====
section
/-! DEFINITION. The immediate loads `LD r,n` (spec/41_ld_r_n.md R150 to R156). -/

namespace Sys2Proof.Machine

/-- `LD B,n` (R150). -/
def execLdBN (n : Byte) (s : State) : Host.Outcome State Fault Refusal := loadImm .b n s

/-- `LD C,n` (R151). -/
def execLdCN (n : Byte) (s : State) : Host.Outcome State Fault Refusal := loadImm .c n s

/-- `LD D,n` (R152). -/
def execLdDN (n : Byte) (s : State) : Host.Outcome State Fault Refusal := loadImm .d n s

/-- `LD E,n` (R153). -/
def execLdEN (n : Byte) (s : State) : Host.Outcome State Fault Refusal := loadImm .e n s

/-- `LD H,n` (R154). -/
def execLdHN (n : Byte) (s : State) : Host.Outcome State Fault Refusal := loadImm .h n s

/-- `LD L,n` (R155). -/
def execLdLN (n : Byte) (s : State) : Host.Outcome State Fault Refusal := loadImm .l n s

/-- `LD A,n` (R156). -/
def execLdAN (n : Byte) (s : State) : Host.Outcome State Fault Refusal := loadImm .a n s

end Sys2Proof.Machine
end

