-- ==== Sys2Proof/Machine/LdRegReg.lean ====
section
/-! DEFINITION. The register-to-register loads `LD r,r'` (spec/40_ld_r_r.md R100 to R148). -/

namespace Sys2Proof.Machine

/-- `LD B,B` (R100). -/
def execLdBB (s : State) : Host.Outcome State Fault Refusal := copyReg .b .b s

/-- `LD B,C` (R101). -/
def execLdBC (s : State) : Host.Outcome State Fault Refusal := copyReg .b .c s

/-- `LD B,D` (R102). -/
def execLdBD (s : State) : Host.Outcome State Fault Refusal := copyReg .b .d s

/-- `LD B,E` (R103). -/
def execLdBE (s : State) : Host.Outcome State Fault Refusal := copyReg .b .e s

/-- `LD B,H` (R104). -/
def execLdBH (s : State) : Host.Outcome State Fault Refusal := copyReg .b .h s

/-- `LD B,L` (R105). -/
def execLdBL (s : State) : Host.Outcome State Fault Refusal := copyReg .b .l s

/-- `LD B,A` (R106). -/
def execLdBA (s : State) : Host.Outcome State Fault Refusal := copyReg .b .a s

/-- `LD C,B` (R107). -/
def execLdCB (s : State) : Host.Outcome State Fault Refusal := copyReg .c .b s

/-- `LD C,C` (R108). -/
def execLdCC (s : State) : Host.Outcome State Fault Refusal := copyReg .c .c s

/-- `LD C,D` (R109). -/
def execLdCD (s : State) : Host.Outcome State Fault Refusal := copyReg .c .d s

/-- `LD C,E` (R110). -/
def execLdCE (s : State) : Host.Outcome State Fault Refusal := copyReg .c .e s

/-- `LD C,H` (R111). -/
def execLdCH (s : State) : Host.Outcome State Fault Refusal := copyReg .c .h s

/-- `LD C,L` (R112). -/
def execLdCL (s : State) : Host.Outcome State Fault Refusal := copyReg .c .l s

/-- `LD C,A` (R113). -/
def execLdCA (s : State) : Host.Outcome State Fault Refusal := copyReg .c .a s

/-- `LD D,B` (R114). -/
def execLdDB (s : State) : Host.Outcome State Fault Refusal := copyReg .d .b s

/-- `LD D,C` (R115). -/
def execLdDC (s : State) : Host.Outcome State Fault Refusal := copyReg .d .c s

/-- `LD D,D` (R116). -/
def execLdDD (s : State) : Host.Outcome State Fault Refusal := copyReg .d .d s

/-- `LD D,E` (R117). -/
def execLdDE (s : State) : Host.Outcome State Fault Refusal := copyReg .d .e s

/-- `LD D,H` (R118). -/
def execLdDH (s : State) : Host.Outcome State Fault Refusal := copyReg .d .h s

/-- `LD D,L` (R119). -/
def execLdDL (s : State) : Host.Outcome State Fault Refusal := copyReg .d .l s

/-- `LD D,A` (R120). -/
def execLdDA (s : State) : Host.Outcome State Fault Refusal := copyReg .d .a s

/-- `LD E,B` (R121). -/
def execLdEB (s : State) : Host.Outcome State Fault Refusal := copyReg .e .b s

/-- `LD E,C` (R122). -/
def execLdEC (s : State) : Host.Outcome State Fault Refusal := copyReg .e .c s

/-- `LD E,D` (R123). -/
def execLdED (s : State) : Host.Outcome State Fault Refusal := copyReg .e .d s

/-- `LD E,E` (R124). -/
def execLdEE (s : State) : Host.Outcome State Fault Refusal := copyReg .e .e s

/-- `LD E,H` (R125). -/
def execLdEH (s : State) : Host.Outcome State Fault Refusal := copyReg .e .h s

/-- `LD E,L` (R126). -/
def execLdEL (s : State) : Host.Outcome State Fault Refusal := copyReg .e .l s

/-- `LD E,A` (R127). -/
def execLdEA (s : State) : Host.Outcome State Fault Refusal := copyReg .e .a s

/-- `LD H,B` (R128). -/
def execLdHB (s : State) : Host.Outcome State Fault Refusal := copyReg .h .b s

/-- `LD H,C` (R129). -/
def execLdHC (s : State) : Host.Outcome State Fault Refusal := copyReg .h .c s

/-- `LD H,D` (R130). -/
def execLdHD (s : State) : Host.Outcome State Fault Refusal := copyReg .h .d s

/-- `LD H,E` (R131). -/
def execLdHE (s : State) : Host.Outcome State Fault Refusal := copyReg .h .e s

/-- `LD H,H` (R132). -/
def execLdHH (s : State) : Host.Outcome State Fault Refusal := copyReg .h .h s

/-- `LD H,L` (R133). -/
def execLdHL (s : State) : Host.Outcome State Fault Refusal := copyReg .h .l s

/-- `LD H,A` (R134). -/
def execLdHA (s : State) : Host.Outcome State Fault Refusal := copyReg .h .a s

/-- `LD L,B` (R135). -/
def execLdLB (s : State) : Host.Outcome State Fault Refusal := copyReg .l .b s

/-- `LD L,C` (R136). -/
def execLdLC (s : State) : Host.Outcome State Fault Refusal := copyReg .l .c s

/-- `LD L,D` (R137). -/
def execLdLD (s : State) : Host.Outcome State Fault Refusal := copyReg .l .d s

/-- `LD L,E` (R138). -/
def execLdLE (s : State) : Host.Outcome State Fault Refusal := copyReg .l .e s

/-- `LD L,H` (R139). -/
def execLdLH (s : State) : Host.Outcome State Fault Refusal := copyReg .l .h s

/-- `LD L,L` (R140). -/
def execLdLL (s : State) : Host.Outcome State Fault Refusal := copyReg .l .l s

/-- `LD L,A` (R141). -/
def execLdLA (s : State) : Host.Outcome State Fault Refusal := copyReg .l .a s

/-- `LD A,B` (R142). -/
def execLdAB (s : State) : Host.Outcome State Fault Refusal := copyReg .a .b s

/-- `LD A,C` (R143). -/
def execLdAC (s : State) : Host.Outcome State Fault Refusal := copyReg .a .c s

/-- `LD A,D` (R144). -/
def execLdAD (s : State) : Host.Outcome State Fault Refusal := copyReg .a .d s

/-- `LD A,E` (R145). -/
def execLdAE (s : State) : Host.Outcome State Fault Refusal := copyReg .a .e s

/-- `LD A,H` (R146). -/
def execLdAH (s : State) : Host.Outcome State Fault Refusal := copyReg .a .h s

/-- `LD A,L` (R147). -/
def execLdAL (s : State) : Host.Outcome State Fault Refusal := copyReg .a .l s

/-- `LD A,A` (R148). -/
def execLdAA (s : State) : Host.Outcome State Fault Refusal := copyReg .a .a s

end Sys2Proof.Machine
end

