-- ==== Sys2Proof/Machine/Dispatch.lean ====
section
/-! DEFINITION. One arm per instruction: which meaning runs it. -/

namespace Sys2Proof.Machine

def exec (i : Instr) (s : State) : Host.Outcome State Fault Refusal :=
  match i with
  -- `LD r,r'` (spec/40_ld_r_r.md)
  | .ldBB => Sys2Proof.Machine.execLdBB s
  | .ldBC => Sys2Proof.Machine.execLdBC s
  | .ldBD => Sys2Proof.Machine.execLdBD s
  | .ldBE => Sys2Proof.Machine.execLdBE s
  | .ldBH => Sys2Proof.Machine.execLdBH s
  | .ldBL => Sys2Proof.Machine.execLdBL s
  | .ldBA => Sys2Proof.Machine.execLdBA s
  | .ldCB => Sys2Proof.Machine.execLdCB s
  | .ldCC => Sys2Proof.Machine.execLdCC s
  | .ldCD => Sys2Proof.Machine.execLdCD s
  | .ldCE => Sys2Proof.Machine.execLdCE s
  | .ldCH => Sys2Proof.Machine.execLdCH s
  | .ldCL => Sys2Proof.Machine.execLdCL s
  | .ldCA => Sys2Proof.Machine.execLdCA s
  | .ldDB => Sys2Proof.Machine.execLdDB s
  | .ldDC => Sys2Proof.Machine.execLdDC s
  | .ldDD => Sys2Proof.Machine.execLdDD s
  | .ldDE => Sys2Proof.Machine.execLdDE s
  | .ldDH => Sys2Proof.Machine.execLdDH s
  | .ldDL => Sys2Proof.Machine.execLdDL s
  | .ldDA => Sys2Proof.Machine.execLdDA s
  | .ldEB => Sys2Proof.Machine.execLdEB s
  | .ldEC => Sys2Proof.Machine.execLdEC s
  | .ldED => Sys2Proof.Machine.execLdED s
  | .ldEE => Sys2Proof.Machine.execLdEE s
  | .ldEH => Sys2Proof.Machine.execLdEH s
  | .ldEL => Sys2Proof.Machine.execLdEL s
  | .ldEA => Sys2Proof.Machine.execLdEA s
  | .ldHB => Sys2Proof.Machine.execLdHB s
  | .ldHC => Sys2Proof.Machine.execLdHC s
  | .ldHD => Sys2Proof.Machine.execLdHD s
  | .ldHE => Sys2Proof.Machine.execLdHE s
  | .ldHH => Sys2Proof.Machine.execLdHH s
  | .ldHL => Sys2Proof.Machine.execLdHL s
  | .ldHA => Sys2Proof.Machine.execLdHA s
  | .ldLB => Sys2Proof.Machine.execLdLB s
  | .ldLC => Sys2Proof.Machine.execLdLC s
  | .ldLD => Sys2Proof.Machine.execLdLD s
  | .ldLE => Sys2Proof.Machine.execLdLE s
  | .ldLH => Sys2Proof.Machine.execLdLH s
  | .ldLL => Sys2Proof.Machine.execLdLL s
  | .ldLA => Sys2Proof.Machine.execLdLA s
  | .ldAB => Sys2Proof.Machine.execLdAB s
  | .ldAC => Sys2Proof.Machine.execLdAC s
  | .ldAD => Sys2Proof.Machine.execLdAD s
  | .ldAE => Sys2Proof.Machine.execLdAE s
  | .ldAH => Sys2Proof.Machine.execLdAH s
  | .ldAL => Sys2Proof.Machine.execLdAL s
  | .ldAA => Sys2Proof.Machine.execLdAA s
  -- `LD r,n` (spec/41_ld_r_n.md)
  | .ldBN n => Sys2Proof.Machine.execLdBN n s
  | .ldCN n => Sys2Proof.Machine.execLdCN n s
  | .ldDN n => Sys2Proof.Machine.execLdDN n s
  | .ldEN n => Sys2Proof.Machine.execLdEN n s
  | .ldHN n => Sys2Proof.Machine.execLdHN n s
  | .ldLN n => Sys2Proof.Machine.execLdLN n s
  | .ldAN n => Sys2Proof.Machine.execLdAN n s
  -- `LD r,[HL]` (spec/42_ld_hl_indirect.md)
  | .ldBMemHL => Sys2Proof.Machine.execLdBMemHL s
  | .ldCMemHL => Sys2Proof.Machine.execLdCMemHL s
  | .ldDMemHL => Sys2Proof.Machine.execLdDMemHL s
  | .ldEMemHL => Sys2Proof.Machine.execLdEMemHL s
  | .ldHMemHL => Sys2Proof.Machine.execLdHMemHL s
  | .ldLMemHL => Sys2Proof.Machine.execLdLMemHL s
  | .ldAMemHL => Sys2Proof.Machine.execLdAMemHL s
  -- `LD [HL],r` (spec/42_ld_hl_indirect.md)
  | .ldMemHLB => Sys2Proof.Machine.execLdMemHLB s
  | .ldMemHLC => Sys2Proof.Machine.execLdMemHLC s
  | .ldMemHLD => Sys2Proof.Machine.execLdMemHLD s
  | .ldMemHLE => Sys2Proof.Machine.execLdMemHLE s
  | .ldMemHLH => Sys2Proof.Machine.execLdMemHLH s
  | .ldMemHLL => Sys2Proof.Machine.execLdMemHLL s
  | .ldMemHLA => Sys2Proof.Machine.execLdMemHLA s
  -- `LD [HL],n`
  | .ldMemHLN n => Sys2Proof.Machine.execLdMemHLN n s
  -- through `BC` and `DE` (spec/43_ld_bc_de_indirect.md)
  | .ldMemBCA => Sys2Proof.Machine.execLdMemBCA s
  | .ldAMemBC => Sys2Proof.Machine.execLdAMemBC s
  | .ldMemDEA => Sys2Proof.Machine.execLdMemDEA s
  | .ldAMemDE => Sys2Proof.Machine.execLdAMemDE s
  -- `JP nn` (spec/44_jp_nn.md)
  | .jp nn => Sys2Proof.Machine.execJp nn s
  -- absolute (spec/45_ld_abs_a.md)
  | .ldMemNNA nn => Sys2Proof.Machine.execLdMemNNA nn s
  | .ldAMemNN nn => Sys2Proof.Machine.execLdAMemNN nn s
  -- high page (spec/46_ld_highpage_c.md)
  | .ldMemCA => Sys2Proof.Machine.execLdMemCA s
  | .ldAMemC => Sys2Proof.Machine.execLdAMemC s

end Sys2Proof.Machine
end

