-- ==== Sys2Proof/Machine/Load.lean ====
section
/-! DEFINITION. Placing bytes from outside the machine: how a program comes to stand where the fetch reads (log 1). -/

namespace Sys2Proof.Machine

/-- Put a byte where `busRead` of the address finds it: into the image at the index the active bank gives, or into work
RAM. An unmapped address has no byte to put. -/
def placeByte (s : State) (addr : Addr) (v : Byte) : State :=
  if InCart addr then
    match activeRomBank s.mbc1 addr with
    | .ok bank => { s with cart := s.cart.load (physIndex bank addr).toNat v }
    | .fault _ => s
  else if InWram addr then { s with wram := wramWrite s.wram (wramIndex addr) v }
  else s

/-- Put three bytes, the longest instruction, at `addr` and the two addresses after it. -/
def placeThree (s : State) (addr : Addr) (v0 v1 v2 : Byte) : State :=
  placeByte (placeByte (placeByte s addr v0) (addr + 1) v1) (addr + 2) v2

end Sys2Proof.Machine
end

