-- ==== Sys2Proof/Machine/Step.lean ====
section
/-! DEFINITION. One step (spec/30_encoding.md R97), and loading the next instruction from outside. -/

namespace Sys2Proof.Machine

/-- One step: fetch an instruction, run it. A step completes or raises exactly one fault (spec/60_exceptions.md R200). -/
def step (s : State) : Host.Outcome State Fault Refusal :=
  match fetchInstr s with
  | .got i t => exec i t
  | .raised f _ => raiseFault f

/-- `s` with the instruction of a table word of `nbits` bits (first byte in bits 7 to 0, zeros above) stored where `step`
fetches next: at `pc`, in the image or in work RAM (log 1). -/
def State.withFetchWord (s : State) (nbits w : Nat) : State :=
  let v := w % 2 ^ nbits
  placeThree s s.pc (tableByte v 0) (tableByte v 1) (tableByte v 2)

end Sys2Proof.Machine
end

