-- ==== Sys2Proof/Machine/Header.lean ====
section
/-! DEFINITION. The cartridge header parser (spec/70_reset_and_hazards.md R239 to R251): a pure function on the host's side.
It reads no state of the block and changes none (R250). -/

namespace Sys2Proof.Machine

/-- The cartridge families with their feature flags (R243). The flags each family carries, but for `mbc3`, are the spec's
table from general knowledge (PRESUMED, log 10). -/
inductive CartridgeType where
  | rom (ram battery : Bool)
  | mbc1 (ram battery : Bool)
  | mbc2 (battery : Bool)
  | mbc3 (battery ram timer : Bool)
  | mbc5 (ram battery rumble : Bool)
  | mbc6
  | mbc7
  | huC1
  | huC3
  | mmm01 (ram battery : Bool)
  | bandaiTama5
  | pocketCamera
  deriving DecidableEq, Repr

/-- The parser's open arguments: `LOGO` (R241), `CART_TYPE_TABLE` (R243), and `TITLE_DECODE` (R242, D14) as a partial
decoding of the title bytes and the characters that are trimmed from its end. -/
structure HeaderParams where
  logo : List Byte
  cartType : Byte → Option CartridgeType
  decodeTitle : List Byte → Option (List Char)
  isTrimmed : Char → Bool

/-- The hard failures (R251). The spec fixes no message text, so an error is its kind and its data (D20). -/
inductive HeaderError where
  /-- the input is shorter than the header -/
  | tooShort (required actual : Nat)
  /-- the title is not valid text -/
  | badTitle
  | unknownCartridgeType (code : Byte)
  | badRomSize (code : Byte)
  | badRamSize (code : Byte)
  deriving DecidableEq, Repr

/-- The header-checksum result (R247): `expected` is the stored byte, `actual` the recomputed one (D19, log 11). -/
inductive HeaderChecksum where
  | ok (byte : Byte)
  | mismatch (actual expected : Byte)
  deriving DecidableEq, Repr

/-- The advisory part of the result (R249). -/
structure Validation where
  logoValid : Bool
  headerChecksum : HeaderChecksum
  globalChecksum : BitVec 16
  deriving DecidableEq, Repr

/-- The parsed header (R249). -/
structure Header where
  title : List Char
  cartridgeType : CartridgeType
  romBanks : Nat
  ramBanks : Nat
  version : Byte
  validation : Validation
  deriving DecidableEq, Repr

/-- What the parser returns (R251: the caller must branch on it). -/
inductive HeaderResult where
  | parsed (h : Header)
  | failed (e : HeaderError)
  deriving DecidableEq, Repr

/-- The length of the header, 80 bytes (R239). -/
def headerLength : Nat := 80

/-- The header byte at an absolute image offset 0x100 to 0x14F (R239: input index `j` is offset `0x100 + j`). -/
def headerByte (input : List Byte) (offset : Nat) : Byte := input.getD (offset - 0x100) 0

/-- `size` header bytes from an absolute offset. -/
def headerField (input : List Byte) (offset size : Nat) : List Byte := (input.drop (offset - 0x100)).take size

/-- Remove the trimmed characters at the end, and only there (R242). -/
def trimEnd (isTrimmed : Char → Bool) (text : List Char) : List Char := (text.reverse.dropWhile isTrimmed).reverse

/-- ROM banks from the size code: `2 << code`, valid for 0 to 8 (R244). -/
def parseRomBanks (code : Byte) : Option Nat := if code.toNat ≤ 8 then some (2 <<< code.toNat) else none

/-- RAM banks from the size code: the sparse table (R245). -/
def parseRamBanks (code : Byte) : Option Nat :=
  if code = 0 then some 0
  else if code = 2 then some 1
  else if code = 3 then some 4
  else if code = 4 then some 16
  else if code = 5 then some 8
  else none

/-- The header checksum over the 25 bytes 0x134 to 0x14C: `acc = acc - byte - 1` with 8-bit wraparound (R247). -/
def headerChecksum (input : List Byte) : Byte := (headerField input 0x134 25).foldl (fun acc v => acc - v - 1) 0

/-- Compare the recomputed checksum with the stored byte at 0x14D (R247). -/
def checkHeaderChecksum (input : List Byte) : HeaderChecksum :=
  if headerChecksum input = headerByte input 0x14D then .ok (headerByte input 0x14D)
  else .mismatch (headerChecksum input) (headerByte input 0x14D)

/-- The global checksum, big-endian, recorded only (R248). -/
def globalChecksum (input : List Byte) : BitVec 16 :=
  ((headerByte input 0x14E).setWidth 16 <<< 8) + (headerByte input 0x14F).setWidth 16

/-- The advisory record: it never blocks (R249). -/
def validateHeader (p : HeaderParams) (input : List Byte) : Validation where
  logoValid := decide (headerField input 0x104 48 = p.logo)
  headerChecksum := checkHeaderChecksum input
  globalChecksum := globalChecksum input

/-- The parser (R239 to R251). Input beyond 80 bytes is ignored (D18); the first failure in the order length, title, type,
ROM size, RAM size is reported (D20); logo and checksums never fail. -/
def parseHeader (p : HeaderParams) (input : List Byte) : HeaderResult :=
  if input.length < headerLength then .failed (.tooShort headerLength input.length)
  else
    match p.decodeTitle (headerField input 0x134 16) with
    | none => .failed .badTitle
    | some text =>
      match p.cartType (headerByte input 0x147) with
      | none => .failed (.unknownCartridgeType (headerByte input 0x147))
      | some ty =>
        match parseRomBanks (headerByte input 0x148) with
        | none => .failed (.badRomSize (headerByte input 0x148))
        | some rom =>
          match parseRamBanks (headerByte input 0x149) with
          | none => .failed (.badRamSize (headerByte input 0x149))
          | some ram =>
            .parsed
              { title := trimEnd p.isTrimmed text
                cartridgeType := ty
                romBanks := rom
                ramBanks := ram
                version := headerByte input 0x14C
                validation := validateHeader p input }

/-! ## The recommended arguments

The values the spec supplies from general knowledge or recommends (R241, R242, R243, D14, D23; PRESUMED, log 10). -/

/-- The published 48-byte logo (R241). -/
def publishedLogo : List Byte :=
  [0xCE, 0xED, 0x66, 0x66, 0xCC, 0x0D, 0x00, 0x0B, 0x03, 0x73, 0x00, 0x83, 0x00, 0x0C, 0x00, 0x0D] ++
  [0x00, 0x08, 0x11, 0x1F, 0x88, 0x89, 0x00, 0x0E, 0xDC, 0xCC, 0x6E, 0xE6, 0xDD, 0xDD, 0xD9, 0x99] ++
  [0xBB, 0xBB, 0x67, 0x63, 0x6E, 0x0E, 0xEC, 0xCC, 0xDD, 0xDC, 0x99, 0x9F, 0xBB, 0xB9, 0x33, 0x3E]

/-- The published cartridge-type table, 28 codes (R243). -/
def publishedCartTypes : List (Byte × CartridgeType) :=
  [(0x00, .rom false false), (0x01, .mbc1 false false), (0x02, .mbc1 true false), (0x03, .mbc1 true true),
   (0x05, .mbc2 false), (0x06, .mbc2 true), (0x08, .rom true false), (0x09, .rom true true)] ++
  [(0x0B, .mmm01 false false), (0x0C, .mmm01 true false), (0x0D, .mmm01 true true), (0x0F, .mbc3 true false true),
   (0x10, .mbc3 true true true), (0x11, .mbc3 false false false), (0x12, .mbc3 false true false),
   (0x13, .mbc3 true true false)] ++
  [(0x19, .mbc5 false false false), (0x1A, .mbc5 true false false), (0x1B, .mbc5 true true false),
   (0x1C, .mbc5 false false true), (0x1D, .mbc5 true false true), (0x1E, .mbc5 true true true)] ++
  [(0x20, .mbc6), (0x22, .mbc7), (0xFC, .pocketCamera), (0xFD, .bandaiTama5), (0xFE, .huC3), (0xFF, .huC1)]

/-- The type of a code in a table; none for every other code. -/
def cartTypeIn (code : Byte) : List (Byte × CartridgeType) → Option CartridgeType
  | [] => none
  | (k, t) :: rows => if k = code then some t else cartTypeIn code rows

/-- The number of continuation bytes and the leading bits of a UTF-8 first byte; none for a byte that starts nothing. -/
def utf8Lead (v : Byte) : Option (Nat × Nat) :=
  if v.toNat < 0x80 then some (0, v.toNat)
  else if v.toNat < 0xC0 then none
  else if v.toNat < 0xE0 then some (1, v.toNat - 0xC0)
  else if v.toNat < 0xF0 then some (2, v.toNat - 0xE0)
  else if v.toNat < 0xF8 then some (3, v.toNat - 0xF0)
  else none

/-- The least code point that needs this many continuation bytes; a shorter form of it is not valid UTF-8. -/
def utf8Least : Nat → Nat
  | 0 => 0
  | 1 => 0x80
  | 2 => 0x800
  | _ => 0x10000

/-- A code point as a character: in the range of Unicode, no surrogate, in its shortest form. -/
def utf8Char (cont cp : Nat) : Option Char :=
  if utf8Least cont ≤ cp ∧ cp ≤ 0x10FFFF ∧ ¬(0xD800 ≤ cp ∧ cp ≤ 0xDFFF) then some (Char.ofNat cp) else none

/-- Decode UTF-8: `cont` continuation bytes are still due of `total`, `cp` holds the bits read so far. -/
def utf8From : Nat → Nat → Nat → List Byte → Option (List Char)
  | 0, _, _, [] => some []
  | _ + 1, _, _, [] => none
  | 0, _, _, v :: rest =>
    match utf8Lead v with
    | none => none
    | some (0, bits) => (utf8From 0 0 0 rest).map (Char.ofNat bits :: ·)
    | some (n + 1, bits) => utf8From (n + 1) (n + 1) bits rest
  | cont + 1, total, cp, v :: rest =>
    if 0x80 ≤ v.toNat ∧ v.toNat < 0xC0 then
      let cp' := cp * 64 + (v.toNat - 0x80)
      match cont with
      | 0 =>
        match utf8Char total cp' with
        | none => none
        | some ch => (utf8From 0 0 0 rest).map (ch :: ·)
      | k + 1 => utf8From (k + 1) total cp' rest
    else none

/-- The recommended title decoding: UTF-8 over all the bytes (R242). -/
def utf8Decode (bytes : List Byte) : Option (List Char) := utf8From 0 0 0 bytes

/-- NUL and Unicode white space, the recommended trimmed set (R242, D14). -/
def isNulOrSpace (ch : Char) : Bool :=
  decide (ch.toNat = 0 ∨ (0x09 ≤ ch.toNat ∧ ch.toNat ≤ 0x0D) ∨ ch.toNat = 0x20 ∨ ch.toNat = 0x85 ∨ ch.toNat = 0xA0 ∨
    ch.toNat = 0x1680 ∨ (0x2000 ≤ ch.toNat ∧ ch.toNat ≤ 0x200A) ∨ ch.toNat = 0x2028 ∨ ch.toNat = 0x2029 ∨
    ch.toNat = 0x202F ∨ ch.toNat = 0x205F ∨ ch.toNat = 0x3000)

/-- The recommended arguments together. -/
def HeaderParams.recommended : HeaderParams where
  logo := publishedLogo
  cartType := fun code => cartTypeIn code publishedCartTypes
  decodeTitle := utf8Decode
  isTrimmed := isNulOrSpace

end Sys2Proof.Machine
end

