-- ==== Sys2Proof/Machine/System.lean ====
section
/-! DEFINITION. The System: construction from a cartridge image and the bounded run loop (spec/70_reset_and_hazards.md R230
to R237). Gas is the host's, not state of the block (R237). -/

namespace Sys2Proof.Machine

/-- The cells of an image whose first byte has index `i` (R238: image offset and physical index are the same). -/
def cellsOfBytes : Nat → List Byte → Memory
  | _, [] => []
  | i, v :: image => if romUnlisted = some v then cellsOfBytes (i + 1) image else (i, v) :: cellsOfBytes (i + 1) image

/-- The cartridge of an image, any byte sequence of any length (R232, spec/20_memory.md R58, D16). -/
def Cartridge.ofBytes (oob : RomOobPolicy) (image : List Byte) : Cartridge where
  len := image.length
  cells := cellsOfBytes 0 image
  oob := oob

/-- Construction of a System from the arguments of R232: `A_RESET`, `ROM_OOB_POLICY` and `ROM_IMAGE`. Reset is
construction (R230). -/
def State.construct (aReset : Byte) (oob : RomOobPolicy) (image : List Byte) : State :=
  { State.reset with a := aReset, cart := Cartridge.ofBytes oob image }

/-- The gas budget (R234): a tagged value, the count an unbounded natural number (D22). -/
inductive Gas where
  | unlimited
  | limited (n : Nat)
  deriving DecidableEq, Repr

/-- Pay for one step: none when the budget is used up (R234). -/
def Gas.pay : Gas → Option Gas
  | .unlimited => some .unlimited
  | .limited 0 => none
  | .limited (n + 1) => some (.limited n)

/-- How far a run has come (spec/60_exceptions.md R207, R236). -/
inductive RunOutcome where
  /-- the gas is exhausted; the state is as the last completed step left it -/
  | stopped (s : State)
  /-- a step raised a fault: absorbing, nothing follows -/
  | faulted (f : Fault)
  /-- still running after the passes observed -/
  | running (gas : Gas) (s : State)
  /-- never reached: no instruction is refused -/
  | refused (r : Refusal)
  deriving DecidableEq, Repr

/-- The first `k` passes of the loop of R234: test the gas, pay, step. The source's loop has no bound of its own; it is
observed for `k` passes so that the definition is total (log 12). -/
def runLoop : Nat → Gas → State → RunOutcome
  | 0, gas, s =>
    match gas.pay with
    | none => .stopped s
    | some _ => .running gas s
  | k + 1, gas, s =>
    match gas.pay with
    | none => .stopped s
    | some left =>
      match step s with
      | .next t => runLoop k left t
      | .fault f => .faulted f
      | .refused r => .refused r

/-- `run_with_gas(Limited(n))` (R234). -/
def runWithGas (n : Nat) (s : State) : RunOutcome := runLoop n (.limited n) s

/-- `run()`, which is `run_with_gas(Unlimited)` (R235), observed for `k` passes. -/
def runForever (k : Nat) (s : State) : RunOutcome := runLoop k .unlimited s

/-- The sum of the costs the first `k` steps return: a ghost of the model, read by nothing (R259, D21). -/
def spentCycles : Nat → State → Nat
  | 0, _ => 0
  | k + 1, s =>
    match step s with
    | .next t => t.cycles.toNat + spentCycles k t
    | .fault _ => 0
    | .refused _ => 0

end Sys2Proof.Machine
end

