-- ==== Sys2Proof/Machine/Trace.lean ====
section
/-! DEFINITION. The Bus transactions of a step, in order (spec/20_memory.md R64). This view is the spec's table written
beside the step; statements tie the two together. -/

namespace Sys2Proof.Machine

/-- One Bus transaction (spec/00_scope.md R8). -/
inductive Transaction where
  | read (addr : Addr)
  | write (addr : Addr) (v : Byte)
  deriving DecidableEq, Repr

/-- The data transaction of each instruction at the state its fetches leave (R64): a read or a write of the addressed
byte, or none. -/
def dataAccess (i : Instr) (s : State) : Option Transaction :=
  match i with
  | .ldMemBCA => some (.write s.bc s.a)
  | .ldAMemBC => some (.read s.bc)
  | .ldMemDEA => some (.write s.de s.a)
  | .ldAMemDE => some (.read s.de)
  | .ldMemHLN n => some (.write s.hl n)
  | .ldBMemHL => some (.read s.hl)
  | .ldCMemHL => some (.read s.hl)
  | .ldDMemHL => some (.read s.hl)
  | .ldEMemHL => some (.read s.hl)
  | .ldHMemHL => some (.read s.hl)
  | .ldLMemHL => some (.read s.hl)
  | .ldMemHLB => some (.write s.hl s.b)
  | .ldMemHLC => some (.write s.hl s.c)
  | .ldMemHLD => some (.write s.hl s.d)
  | .ldMemHLE => some (.write s.hl s.e)
  | .ldMemHLH => some (.write s.hl s.h)
  | .ldMemHLL => some (.write s.hl s.l)
  | .ldMemHLA => some (.write s.hl s.a)
  | .ldAMemHL => some (.read s.hl)
  | .ldMemCA => some (.write s.highPageC s.a)
  | .ldMemNNA nn => some (.write nn s.a)
  | .ldAMemC => some (.read s.highPageC)
  | .ldAMemNN nn => some (.read nn)
  | .ldBN _ | .ldCN _ | .ldDN _ | .ldEN _ | .ldHN _ | .ldLN _ | .ldAN _
  | .ldBB | .ldBC | .ldBD | .ldBE | .ldBH | .ldBL | .ldBA
  | .ldCB | .ldCC | .ldCD | .ldCE | .ldCH | .ldCL | .ldCA
  | .ldDB | .ldDC | .ldDD | .ldDE | .ldDH | .ldDL | .ldDA
  | .ldEB | .ldEC | .ldED | .ldEE | .ldEH | .ldEL | .ldEA
  | .ldHB | .ldHC | .ldHD | .ldHE | .ldHH | .ldHL | .ldHA
  | .ldLB | .ldLC | .ldLD | .ldLE | .ldLH | .ldLL | .ldLA
  | .ldAB | .ldAC | .ldAD | .ldAE | .ldAH | .ldAL | .ldAA
  | .jp _ => none

/-- The transactions of the step at `s` in the order they are issued (R64). The first that faults is the last (R64), an
unimplemented opcode is read and nothing after it (R91). -/
def transactions (s : State) : List Transaction :=
  let at1 := s.pc + 1
  let at2 := s.pc + 2
  match busRead s s.pc with
  | .fault _ => [.read s.pc]
  | .ok op =>
    match opcodeEntry op with
    | none => [.read s.pc]
    | some (.op i) => .read s.pc :: (dataAccess i s).toList
    | some (.opN mk) =>
      match busRead s at1 with
      | .fault _ => [.read s.pc, .read at1]
      | .ok n => .read s.pc :: .read at1 :: (dataAccess (mk n) s).toList
    | some (.opNN mk) =>
      match busRead s at1, busRead s at2 with
      | .fault _, _ => [.read s.pc, .read at1]
      | .ok _, .fault _ => [.read s.pc, .read at1, .read at2]
      | .ok lo, .ok hi => .read s.pc :: .read at1 :: .read at2 :: (dataAccess (mk (wordOfBytes lo hi)) s).toList

/-- What a transaction does to the state, or the fault it raises (R42, R43). -/
def perform (s : State) : Transaction → Res State
  | .read addr =>
    match busRead s addr with
    | .ok _ => .ok s
    | .fault f => .fault f
  | .write addr v => busWrite s addr v

/-- Transactions performed one after another; the first fault ends them. -/
def performAll (s : State) : List Transaction → Res State
  | [] => .ok s
  | x :: xs =>
    match perform s x with
    | .ok t => performAll t xs
    | .fault f => .fault f

end Sys2Proof.Machine
end

