-- ==== Sys2Proof/Safety.lean ====
section
/-! DEFINITION. What claims call a legal state and a safe run. -/

namespace Sys2Proof.Machine

/-- The representation of the two arrays is canonical: the work RAM within its 8192 bytes (spec/10_state.md R25), the image
within its length (spec/20_memory.md R58). -/
abbrev State.MemoryCanonical (s : State) : Prop :=
  Memory.wf Config.wramSize wramUnlisted s.wram = true ∧ Memory.wf s.cart.len romUnlisted s.cart.cells = true

/-- `bank1` is never 0 (spec/10_state.md R20). -/
abbrev State.Bank1Legal (s : State) : Prop := s.mbc1.bank1 ≠ 0

/-- The last cost returned is one of the costs of the table of spec/70_reset_and_hazards.md R258, or none was returned. -/
abbrev State.CostLegal (s : State) : Prop := s.cycles.toNat ≤ 4

/-- The invariant every step keeps. -/
abbrev State.Legal (s : State) : Prop := s.MemoryCanonical ∧ s.Bank1Legal ∧ s.CostLegal

/-- An address some device answers (spec/20_memory.md R41). -/
abbrev Mapped (addr : Addr) : Prop := InCart addr ∨ InWram addr

/-- A fault of the opcode read ends the step with nothing changed (spec/30_encoding.md R97). -/
def OpcodeReadFaultEnds (s : State) : Prop :=
  ∀ f, busRead s s.pc = .fault f → step s = .fault f ∧ stateAtFault s = s

/-- With the opcode byte `op` read, the first of its `n` operand bytes whose read faults ends the step, `pc` past the bytes
read before it and nothing else changed (spec/60_exceptions.md R208, R209). -/
def OperandReadFaultEnds (op : Byte) (n : Nat) (s : State) : Prop :=
  ∀ (k : Nat) (f : Fault), k < n → busRead s s.pc = .ok op →
    (∀ j, 1 ≤ j → j ≤ k → ∃ v, busRead s (s.pc + BitVec.ofNat 16 j) = .ok v) →
    busRead s (s.pc + BitVec.ofNat 16 (k + 1)) = .fault f →
    step s = .fault f ∧ stateAtFault s = { s with pc := s.pc + BitVec.ofNat 16 (k + 1) }

/-- What a load of register `dst` from `addr` answers at `s`: the byte read, in `dst`, and nothing else changed but the cost
returned; or the fault of the read, which for an address no device answers is `BusUnmapped`. -/
def LoadsByte (dst : Reg) (addr : Addr) (cost : BitVec 8) (s : State) (o : Host.Outcome State Fault Refusal) : Prop :=
  (∀ v, busRead s addr = .ok v → o = .next { s.setReg dst v with cycles := cost }) ∧
    (∀ f, busRead s addr = .fault f → o = .fault f) ∧
    (¬Mapped addr → o = .fault (.busUnmapped addr .read))

/-- What a store of `v` to `addr` answers at `s`. Into work RAM: the byte is stored, read back, and every other address reads
as before. Into the controller's range: one MBC1 register write and nothing stored, so every work-RAM address reads as
before. Elsewhere: `BusUnmapped`. -/
def StoresByte (addr : Addr) (v : Byte) (cost : BitVec 8) (s : State) (o : Host.Outcome State Fault Refusal) : Prop :=
  (InWram addr → ∃ t, o = .next t ∧ t = { s with wram := wramWrite s.wram (wramIndex addr) v, cycles := cost } ∧
      ∀ other, busRead t other = if other = addr then .ok v else busRead s other) ∧
    (InCart addr → ∃ t m, o = .next t ∧ mbc1Write s.mbc1 addr v = .ok m ∧ t = { s with mbc1 := m, cycles := cost } ∧
      ∀ other, InWram other → busRead t other = busRead s other) ∧
    (¬Mapped addr → o = .fault (.busUnmapped addr .write))

/-- The byte of the last write of a sequence to an MBC1 region, numbered by address bits 14 and 13 (spec/20_memory.md R47). -/
def lastWriteTo (region : Nat) (ws : List (Addr × Byte)) : Option Byte :=
  ((ws.filter fun w => w.1.toNat / 0x2000 = region).getLast?).map Prod.snd

/-- A run of `n` steps is safe when no step of it raises a fault: the gas ends it (spec/70_reset_and_hazards.md R236). -/
def RunsSafely (n : Nat) (s : State) : Prop := ∃ t, runWithGas n s = .stopped t

/-- Two states agree on the block's own state: everything but the value the last step returned (log 8). -/
def SameBlock (s t : State) : Prop := { s with cycles := 0 } = { t with cycles := 0 }

end Sys2Proof.Machine
end

