-- ==== Sys2Proof/Certificates/Slice0/Obligations.lean ====
section
/-! DEFINITION. The statements. Each docstring is the statement's text in OBLIGATIONS.json with the rules it formalises or the
sections it rests on. -/

open Sys2Proof Sys2Proof.Machine

/-- A System constructed from any value of a, any policy and any image has f, b, c, d, e, h, l = 0x00 and pc = 0x0100,
as rule R28 of 10_state.md says. BC, DE and HL are then 0, which R28 marks as derived from rule R12. State.reset is the
System constructed from the opaque value of a, the opaque policy and the empty image: these three are the model's
choices (logs 2, 5 and 1), no rule of the spec. [10_state.md sections 1 and 7, 70_reset_and_hazards.md section 1,
92_eei_decisions.md D3, D5, D16] -/
def Obligations.ResetRegistersAndPc : Prop :=
  (∀ (aReset : Byte) (oob : RomOobPolicy) (image : List Byte),
      let s := State.construct aReset oob image
      s.f = 0x00 ∧ s.b = 0x00 ∧ s.c = 0x00 ∧ s.d = 0x00 ∧ s.e = 0x00 ∧ s.h = 0x00 ∧ s.l = 0x00 ∧ s.pc = 0x0100 ∧
        s.bc = 0x0000 ∧ s.de = 0x0000 ∧ s.hl = 0x0000) ∧
    State.reset = State.construct Config.aReset Config.romOobPolicy []

/-- A System constructed from A_RESET, ROM_OOB_POLICY and an image holds them: a, the policy, ROM_LEN = the length of
the image, each image byte at its index, and every work-RAM byte is WRAM_INIT. The open arguments are the spec's
(decisions D3, D5, D6, D16); holding them in the state is the model's choice (logs 1, 2, 3). [10_state.md section 7,
70_reset_and_hazards.md section 1, 92_eei_decisions.md D3, D5, D6, D16] -/
def Obligations.ConstructedSystemHoldsItsArguments : Prop :=
  ∀ (aReset : Byte) (oob : RomOobPolicy) (image : List Byte),
    let s := State.construct aReset oob image
    s.a = aReset ∧ s.cart.oob = oob ∧ s.cart.len = image.length ∧
      (∀ (i : Nat) (h : i < image.length), s.cart.byte i = image[i]) ∧
      ∀ i, wramByte s.wram i = Config.wramInit i

/-- At reset ram_gate is false, bank1 is 1, bank2 is 0 and mode is false (the spec's own decision D4, log 4), so each
address of the cartridge range resolves to the physical index equal to the address (read path: decision D2, log 7).
[10_state.md section 7, 20_memory.md section 4, 92_eei_decisions.md D2, D4] -/
def Obligations.ResetBankingShowsImageOneToOne : Prop :=
  State.reset.mbc1 = { ramGate := false, bank1 := 1, bank2 := 0, mode := false } ∧
    ∀ addr, InCart addr → ∃ bank, activeRomBank State.reset.mbc1 addr = .ok bank ∧ (physIndex bank addr).toNat = addr.toNat

/-- A register write puts the value in that register and leaves every other register, f, pc, the MBC1, the work RAM and
the cartridge as they were. [10_state.md section 1] -/
def Obligations.RegistersAreIndependentStorage : Prop :=
  ∀ (s : State) (r r' : Reg) (v : Byte),
    (s.setReg r v).reg r = v ∧ (r' ≠ r → (s.setReg r v).reg r' = s.reg r') ∧ (s.setReg r v).f = s.f ∧
      (s.setReg r v).pc = s.pc ∧ (s.setReg r v).mbc1 = s.mbc1 ∧ (s.setReg r v).wram = s.wram ∧ (s.setReg r v).cart = s.cart

/-- Each compound view is 256 times its high half plus its low half, a write of a half shows in the view at once, and no
instruction writes both halves of a pair. [R12] -/
def Obligations.CompoundViewsAreLive : Prop :=
  (∀ s : State, s.bc.toNat = s.b.toNat * 256 + s.c.toNat ∧ s.de.toNat = s.d.toNat * 256 + s.e.toNat ∧
      s.hl.toNat = s.h.toNat * 256 + s.l.toNat) ∧
    (∀ (s : State) (v : Byte),
      (s.setReg .b v).bc.toNat = v.toNat * 256 + s.c.toNat ∧ (s.setReg .c v).bc.toNat = s.b.toNat * 256 + v.toNat ∧
        (s.setReg .d v).de.toNat = v.toNat * 256 + s.e.toNat ∧ (s.setReg .e v).de.toNat = s.d.toNat * 256 + v.toNat ∧
        (s.setReg .h v).hl.toNat = v.toNat * 256 + s.l.toNat ∧ (s.setReg .l v).hl.toNat = s.h.toNat * 256 + v.toNat) ∧
    ∀ (i : Instr) (s t : State), exec i s = .next t →
      (t.b = s.b ∨ t.c = s.c) ∧ (t.d = s.d ∨ t.e = s.e) ∧ (t.h = s.h ∨ t.l = s.l)

/-- The increment is (pc + 1) mod 65536, 0xFFFF advances to 0x0000, and a byte fetch that succeeds returns the byte at
pc and changes pc by exactly that increment and nothing else. [R15] -/
def Obligations.PcAdvanceWrapsModulo65536 : Prop :=
  (∀ pc : Addr, (nextPc pc).toNat = (pc.toNat + 1) % 65536) ∧ nextPc 0xFFFF = 0x0000 ∧
    ∀ (s : State) (v : Byte), busRead s s.pc = .ok v → fetch8 s = .got v { s with pc := nextPc s.pc }

/-- No step changes f; a step on the same state with another f does the same and keeps that f (a fault is the same
fault); so after any number of steps from any constructed System f is 0x00. The spec marks this as its derivation
(10_state.md rule R17, "derived"). [10_state.md section 3] -/
def Obligations.FlagRegisterIsNeverReadOrWritten : Prop :=
  (∀ s t, step s = .next t → FlagsKept s t) ∧
    (∀ (s : State) (v : Byte),
      (∀ t, step s = .next t → step { s with f := v } = .next { t with f := v }) ∧
        ∀ flt, step s = .fault flt → step { s with f := v } = .fault flt) ∧
    ∀ (aReset : Byte) (oob : RomOobPolicy) (image : List Byte) (n : Nat) (t : State),
      runWithGas n (State.construct aReset oob image) = .stopped t → t.f = 0x00

/-- The seven instructions ldBB, ldBC, ldBD, ldBE, ldBH, ldBL, ldBA: exec answers the state with b holding the source
register and cost 1, everything else unchanged. A step that reads the instruction's opcode byte at pc answers that state
with pc one further, its only Bus transaction the opcode read; if the opcode read faults the step ends with that fault
and nothing is written. A self-load changes no register. The opcode byte values themselves are the spec's decision D1
(log 6) and are not stated here. [R100, R101, R102, R103, R104, R105, R106] -/
def Obligations.LdBFromEachRegister : Prop :=
  ∀ (src : Reg) (s : State),
    exec (.ldRR .b src) s = .next { s with b := s.reg src, cycles := 1 } ∧
      (busRead s s.pc = .ok (Instr.ldRR .b src).opcode →
        step s = .next { s with b := s.reg src, pc := s.pc + 1, cycles := 1 } ∧ transactions s = [.read s.pc]) ∧
      OpcodeReadFaultEnds s

/-- The seven instructions ldCB, ldCC, ldCD, ldCE, ldCH, ldCL, ldCA: exec answers the state with c holding the source
register and cost 1, everything else unchanged. A step that reads the instruction's opcode byte at pc answers that state
with pc one further, its only Bus transaction the opcode read; if the opcode read faults the step ends with that fault
and nothing is written. A self-load changes no register. The opcode byte values themselves are the spec's decision D1
(log 6) and are not stated here. [R107, R108, R109, R110, R111, R112, R113] -/
def Obligations.LdCFromEachRegister : Prop :=
  ∀ (src : Reg) (s : State),
    exec (.ldRR .c src) s = .next { s with c := s.reg src, cycles := 1 } ∧
      (busRead s s.pc = .ok (Instr.ldRR .c src).opcode →
        step s = .next { s with c := s.reg src, pc := s.pc + 1, cycles := 1 } ∧ transactions s = [.read s.pc]) ∧
      OpcodeReadFaultEnds s

/-- The seven instructions ldDB, ldDC, ldDD, ldDE, ldDH, ldDL, ldDA: exec answers the state with d holding the source
register and cost 1, everything else unchanged. A step that reads the instruction's opcode byte at pc answers that state
with pc one further, its only Bus transaction the opcode read; if the opcode read faults the step ends with that fault
and nothing is written. A self-load changes no register. The opcode byte values themselves are the spec's decision D1
(log 6) and are not stated here. [R114, R115, R116, R117, R118, R119, R120] -/
def Obligations.LdDFromEachRegister : Prop :=
  ∀ (src : Reg) (s : State),
    exec (.ldRR .d src) s = .next { s with d := s.reg src, cycles := 1 } ∧
      (busRead s s.pc = .ok (Instr.ldRR .d src).opcode →
        step s = .next { s with d := s.reg src, pc := s.pc + 1, cycles := 1 } ∧ transactions s = [.read s.pc]) ∧
      OpcodeReadFaultEnds s

/-- The seven instructions ldEB, ldEC, ldED, ldEE, ldEH, ldEL, ldEA: exec answers the state with e holding the source
register and cost 1, everything else unchanged. A step that reads the instruction's opcode byte at pc answers that state
with pc one further, its only Bus transaction the opcode read; if the opcode read faults the step ends with that fault
and nothing is written. A self-load changes no register. The opcode byte values themselves are the spec's decision D1
(log 6) and are not stated here. [R121, R122, R123, R124, R125, R126, R127] -/
def Obligations.LdEFromEachRegister : Prop :=
  ∀ (src : Reg) (s : State),
    exec (.ldRR .e src) s = .next { s with e := s.reg src, cycles := 1 } ∧
      (busRead s s.pc = .ok (Instr.ldRR .e src).opcode →
        step s = .next { s with e := s.reg src, pc := s.pc + 1, cycles := 1 } ∧ transactions s = [.read s.pc]) ∧
      OpcodeReadFaultEnds s

/-- The seven instructions ldHB, ldHC, ldHD, ldHE, ldHH, ldHL, ldHA: exec answers the state with h holding the source
register and cost 1, everything else unchanged. A step that reads the instruction's opcode byte at pc answers that state
with pc one further, its only Bus transaction the opcode read; if the opcode read faults the step ends with that fault
and nothing is written. A self-load changes no register. The opcode byte values themselves are the spec's decision D1
(log 6) and are not stated here. [R128, R129, R130, R131, R132, R133, R134] -/
def Obligations.LdHFromEachRegister : Prop :=
  ∀ (src : Reg) (s : State),
    exec (.ldRR .h src) s = .next { s with h := s.reg src, cycles := 1 } ∧
      (busRead s s.pc = .ok (Instr.ldRR .h src).opcode →
        step s = .next { s with h := s.reg src, pc := s.pc + 1, cycles := 1 } ∧ transactions s = [.read s.pc]) ∧
      OpcodeReadFaultEnds s

/-- The seven instructions ldLB, ldLC, ldLD, ldLE, ldLH, ldLL, ldLA: exec answers the state with l holding the source
register and cost 1, everything else unchanged. A step that reads the instruction's opcode byte at pc answers that state
with pc one further, its only Bus transaction the opcode read; if the opcode read faults the step ends with that fault
and nothing is written. A self-load changes no register. The opcode byte values themselves are the spec's decision D1
(log 6) and are not stated here. [R135, R136, R137, R138, R139, R140, R141] -/
def Obligations.LdLFromEachRegister : Prop :=
  ∀ (src : Reg) (s : State),
    exec (.ldRR .l src) s = .next { s with l := s.reg src, cycles := 1 } ∧
      (busRead s s.pc = .ok (Instr.ldRR .l src).opcode →
        step s = .next { s with l := s.reg src, pc := s.pc + 1, cycles := 1 } ∧ transactions s = [.read s.pc]) ∧
      OpcodeReadFaultEnds s

/-- The seven instructions ldAB, ldAC, ldAD, ldAE, ldAH, ldAL, ldAA: exec answers the state with a holding the source
register and cost 1, everything else unchanged. A step that reads the instruction's opcode byte at pc answers that state
with pc one further, its only Bus transaction the opcode read; if the opcode read faults the step ends with that fault
and nothing is written. A self-load changes no register. The opcode byte values themselves are the spec's decision D1
(log 6) and are not stated here. [R142, R143, R144, R145, R146, R147, R148] -/
def Obligations.LdAFromEachRegister : Prop :=
  ∀ (src : Reg) (s : State),
    exec (.ldRR .a src) s = .next { s with a := s.reg src, cycles := 1 } ∧
      (busRead s s.pc = .ok (Instr.ldRR .a src).opcode →
        step s = .next { s with a := s.reg src, pc := s.pc + 1, cycles := 1 } ∧ transactions s = [.read s.pc]) ∧
      OpcodeReadFaultEnds s

/-- The seven instructions ldBN, ldCN, ldDN, ldEN, ldHN, ldLN, ldAN: exec answers the state with the destination holding
n and cost 2, everything else unchanged. A step that reads the opcode byte and then n answers that state with pc two
further, its Bus transactions those two reads; a fault of either read ends the step with the register not written. The
opcode byte values are decision D1 (log 6) and are not stated here. That the state at an operand fault is the start
state with pc past the bytes read before it, and nothing else changed, is the spec's derivation (60_exceptions.md rules
R208 and R209, "derived") and no claim about a run may rest on it (decision D17; log 9). [41_ld_r_n.md (rules R150 to
R156), 60_exceptions.md section 2, 92_eei_decisions.md D17] -/
def Obligations.LdRegisterImmediate : Prop :=
  ∀ (dst : Reg) (n : Byte) (s : State),
    exec (.ldRN dst n) s = .next { s.setReg dst n with cycles := 2 } ∧
      (busRead s s.pc = .ok (Instr.ldRN dst n).opcode → busRead s (s.pc + 1) = .ok n →
        step s = .next { s.setReg dst n with pc := s.pc + 2, cycles := 2 } ∧
          transactions s = [.read s.pc, .read (s.pc + 1)]) ∧
      OpcodeReadFaultEnds s ∧ OperandReadFaultEnds (Instr.ldRN dst n).opcode 1 s

/-- The seven instructions ldBMemHL, ldCMemHL, ldDMemHL, ldEMemHL, ldHMemHL, ldLMemHL, ldAMemHL: where the byte at HL
can be read, exec answers the state with the destination holding it and cost 2, everything else unchanged, the address
taken from h and l as they were before; a fault of the read is the outcome, BusUnmapped(HL, read) where no device
answers. A step that reads the opcode byte runs it with pc one further; its Bus transactions are the opcode read and the
read of HL. The opcode byte values are decision D1 (log 6) and are not stated here. [R160, R161, R162, R163, R164, R165,
R166] -/
def Obligations.LdRegisterFromHL : Prop :=
  ∀ (dst : Reg) (s : State),
    LoadsByte dst s.hl 2 s (exec (.ldRMemHL dst) s) ∧
      (busRead s s.pc = .ok (Instr.ldRMemHL dst).opcode →
        step s = exec (.ldRMemHL dst) { s with pc := s.pc + 1 } ∧ transactions s = [.read s.pc, .read s.hl]) ∧
      OpcodeReadFaultEnds s

/-- The seven instructions ldMemHLB, ldMemHLC, ldMemHLD, ldMemHLE, ldMemHLH, ldMemHLL, ldMemHLA: with HL in work RAM
exec answers the state with that byte stored and cost 2, every other address reading as before; with HL in 0x0000 to
0x7FFF it answers the state with the one MBC1 register written and nothing stored; elsewhere BusUnmapped(HL, write). A
step that reads the opcode byte runs it with pc one further; its Bus transactions are the opcode read and the write of
HL. The opcode byte values are decision D1 (log 6) and are not stated here. [R167, R168, R169, R170, R171, R172, R173]
-/
def Obligations.LdRegisterToHL : Prop :=
  ∀ (src : Reg) (s : State),
    StoresByte s.hl (s.reg src) 2 s (exec (.ldMemHLR src) s) ∧
      (busRead s s.pc = .ok (Instr.ldMemHLR src).opcode →
        step s = exec (.ldMemHLR src) { s with pc := s.pc + 1 } ∧
          transactions s = [.read s.pc, .write s.hl (s.reg src)]) ∧
      OpcodeReadFaultEnds s

/-- ldMemHLN: with HL in work RAM exec answers the state with n stored there and cost 3, every other address reading as
before; with HL in 0x0000 to 0x7FFF the one MBC1 register is written with n as data and nothing is stored; elsewhere
BusUnmapped(HL, write). A step that reads the opcode byte and then n runs it with pc two further; its Bus transactions
are the two reads and then the write; a fault of a fetch ends the step with no write. The opcode byte value is decision
D1 (log 6) and is not stated here. That the state at an operand fault is the start state with pc past the bytes read
before it, and nothing else changed, is the spec's derivation (60_exceptions.md rules R208 and R209, "derived") and no
claim about a run may rest on it (decision D17; log 9). [42_ld_hl_indirect.md (rule R174), 60_exceptions.md section 2,
92_eei_decisions.md D17] -/
def Obligations.LdImmediateToHL : Prop :=
  ∀ (n : Byte) (s : State),
    StoresByte s.hl n 3 s (exec (.ldMemHLN n) s) ∧
      (busRead s s.pc = .ok (Instr.ldMemHLN n).opcode → busRead s (s.pc + 1) = .ok n →
        step s = exec (.ldMemHLN n) { s with pc := s.pc + 2 } ∧
          transactions s = [.read s.pc, .read (s.pc + 1), .write s.hl n]) ∧
      OpcodeReadFaultEnds s ∧ OperandReadFaultEnds (Instr.ldMemHLN n).opcode 1 s

/-- ldAMemBC and ldAMemDE load a from the byte at BC or DE; ldMemBCA and ldMemDEA store a there; cost 2, nothing else
changed. An address in work RAM is loaded or stored; a store into 0x0000 to 0x7FFF writes one MBC1 register; an address
no device answers faults BusUnmapped with the access kind. A step that reads the opcode byte runs the instruction with
pc one further; its Bus transactions are the opcode read and the one data access. The opcode byte values are decision D1
(log 6) and are not stated here. [R180, R181, R182, R183] -/
def Obligations.AccumulatorThroughPairs : Prop :=
  ∀ s : State,
    LoadsByte .a s.bc 2 s (exec .ldAMemBC s) ∧ LoadsByte .a s.de 2 s (exec .ldAMemDE s) ∧
      StoresByte s.bc s.a 2 s (exec .ldMemBCA s) ∧ StoresByte s.de s.a 2 s (exec .ldMemDEA s) ∧
      (busRead s s.pc = .ok Instr.ldAMemBC.opcode →
        step s = exec .ldAMemBC { s with pc := s.pc + 1 } ∧ transactions s = [.read s.pc, .read s.bc]) ∧
      (busRead s s.pc = .ok Instr.ldAMemDE.opcode →
        step s = exec .ldAMemDE { s with pc := s.pc + 1 } ∧ transactions s = [.read s.pc, .read s.de]) ∧
      (busRead s s.pc = .ok Instr.ldMemBCA.opcode →
        step s = exec .ldMemBCA { s with pc := s.pc + 1 } ∧ transactions s = [.read s.pc, .write s.bc s.a]) ∧
      (busRead s s.pc = .ok Instr.ldMemDEA.opcode →
        step s = exec .ldMemDEA { s with pc := s.pc + 1 } ∧ transactions s = [.read s.pc, .write s.de s.a]) ∧
      OpcodeReadFaultEnds s

/-- jp: exec answers the state with pc = nn and cost 4, nothing else changed, for every nn. A step that reads the opcode
byte, then the low byte, then the high byte of nn answers that state whatever the address of the instruction; its Bus
transactions are those three reads; a fault of one of them ends the step with pc not assigned the target. A target no
device answers faults only at the next step. The opcode byte value is decision D1 (log 6) and is not stated here. That
the state at an operand fault is the start state with pc past the bytes read before it, and nothing else changed, is the
spec's derivation (60_exceptions.md rules R208 and R209, "derived") and no claim about a run may rest on it (decision
D17; log 9). [44_jp_nn.md (rule R190), 60_exceptions.md section 2, 92_eei_decisions.md D17] -/
def Obligations.JumpAbsolute : Prop :=
  ∀ (nn : Addr) (s : State),
    exec (.jp nn) s = .next { s with pc := nn, cycles := 4 } ∧
      (busRead s s.pc = .ok (Instr.jp nn).opcode → busRead s (s.pc + 1) = .ok (lowByte nn) →
        busRead s (s.pc + 2) = .ok (highByte nn) →
        step s = .next { s with pc := nn, cycles := 4 } ∧
          transactions s = [.read s.pc, .read (s.pc + 1), .read (s.pc + 2)]) ∧
      (¬Mapped nn → step { s with pc := nn } = .fault (.busUnmapped nn .read)) ∧
      OpcodeReadFaultEnds s ∧ OperandReadFaultEnds (Instr.jp nn).opcode 2 s

/-- ldMemNNA stores a at nn, ldAMemNN loads a from nn; cost 4, nothing else changed. A store into 0x0000 to 0x7FFF
writes one MBC1 register and stores nothing; an address no device answers, the high page among them, faults BusUnmapped
with the access kind. A step that reads the opcode byte and the two bytes of nn, low byte first, runs the instruction
with pc three further; its Bus transactions are the three reads and then the data access; a fault of a fetch ends the
step with nothing written. The opcode byte values are decision D1 (log 6) and are not stated here. That the state at an
operand fault is the start state with pc past the bytes read before it, and nothing else changed, is the spec's
derivation (60_exceptions.md rules R208 and R209, "derived") and no claim about a run may rest on it (decision D17; log
9). [45_ld_abs_a.md (rules R195, R196), 60_exceptions.md section 2, 92_eei_decisions.md D17] -/
def Obligations.AccumulatorAbsolute : Prop :=
  ∀ (nn : Addr) (s : State),
    StoresByte nn s.a 4 s (exec (.ldMemNNA nn) s) ∧ LoadsByte .a nn 4 s (exec (.ldAMemNN nn) s) ∧
      (busRead s (s.pc + 1) = .ok (lowByte nn) → busRead s (s.pc + 2) = .ok (highByte nn) →
        (busRead s s.pc = .ok (Instr.ldMemNNA nn).opcode →
          step s = exec (.ldMemNNA nn) { s with pc := s.pc + 3 } ∧
            transactions s = [.read s.pc, .read (s.pc + 1), .read (s.pc + 2), .write nn s.a]) ∧
        (busRead s s.pc = .ok (Instr.ldAMemNN nn).opcode →
          step s = exec (.ldAMemNN nn) { s with pc := s.pc + 3 } ∧
            transactions s = [.read s.pc, .read (s.pc + 1), .read (s.pc + 2), .read nn])) ∧
      OpcodeReadFaultEnds s ∧ OperandReadFaultEnds (Instr.ldMemNNA nn).opcode 2 s ∧
      OperandReadFaultEnds (Instr.ldAMemNN nn).opcode 2 s

/-- ldMemCA and ldAMemC: the address is 0xFF00 + c, between 0xFF00 and 0xFFFF, and exec stops with BusUnmapped of that
address, kind write or read, at every state. A step that reads the opcode byte ends in that fault after the opcode read
and the data access. The opcode byte values are decision D1 (log 6) and are not stated here. That the state at the fault
is the start state with pc one further, and nothing else changed, is the spec's derivation (60_exceptions.md rule R208,
"derived") and no claim about a run may rest on it (decision D17; log 9). [46_ld_highpage_c.md (rules R198, R199),
60_exceptions.md section 2, 92_eei_decisions.md D17] -/
def Obligations.HighPageFormsAlwaysFault : Prop :=
  ∀ s : State,
    s.highPageC.toNat = 0xFF00 + s.c.toNat ∧
      exec .ldMemCA s = .fault (.busUnmapped s.highPageC .write) ∧
      exec .ldAMemC s = .fault (.busUnmapped s.highPageC .read) ∧
      (busRead s s.pc = .ok Instr.ldMemCA.opcode →
        step s = .fault (.busUnmapped s.highPageC .write) ∧ transactions s = [.read s.pc, .write s.highPageC s.a] ∧
          stateAtFault s = { s with pc := s.pc + 1 }) ∧
      (busRead s s.pc = .ok Instr.ldAMemC.opcode →
        step s = .fault (.busUnmapped s.highPageC .read) ∧ transactions s = [.read s.pc, .read s.highPageC] ∧
          stateAtFault s = { s with pc := s.pc + 1 }) ∧
      OpcodeReadFaultEnds s

/-- BusRead of 0x0000 to 0x7FFF is the ROM read of the raw address, of 0xC000 to 0xDFFF the work-RAM byte at the address
less 0xC000, and of every other address the fault BusUnmapped(addr, read). It answers a byte or a fault and no state.
[R42] -/
def Obligations.BusReadRoutesByAddress : Prop :=
  ∀ (s : State) (addr : Addr),
    (addr.toNat ≤ 0x7FFF → busRead s addr = romRead s.cart s.mbc1 addr) ∧
      (0xC000 ≤ addr.toNat → addr.toNat ≤ 0xDFFF → busRead s addr = .ok (wramByte s.wram (addr.toNat - 0xC000))) ∧
      (0x7FFF < addr.toNat → (addr.toNat < 0xC000 ∨ 0xDFFF < addr.toNat) → busRead s addr = .fault (.busUnmapped addr .read))

/-- BusWrite to 0x0000 to 0x7FFF hands the raw address and the value to the MBC1 and changes nothing else, to 0xC000 to
0xDFFF writes the work-RAM byte at the address less 0xC000 and nothing else, and to every other address is the fault
BusUnmapped(addr, write). [R43] -/
def Obligations.BusWriteRoutesByAddress : Prop :=
  ∀ (s : State) (addr : Addr) (v : Byte),
    (addr.toNat ≤ 0x7FFF → ∃ m, mbc1Write s.mbc1 addr v = .ok m ∧ busWrite s addr v = .ok { s with mbc1 := m }) ∧
      (0xC000 ≤ addr.toNat → addr.toNat ≤ 0xDFFF →
        busWrite s addr v = .ok { s with wram := wramWrite s.wram (addr.toNat - 0xC000) v }) ∧
      (0x7FFF < addr.toNat → (addr.toNat < 0xC000 ∨ 0xDFFF < addr.toNat) →
        busWrite s addr v = .fault (.busUnmapped addr .write))

/-- A store to 0xC000 to 0xDFFF succeeds, the address then reads as the whole byte stored, and every other address,
mapped or not, in ROM or RAM, reads as before; 0xC000 is index 0, 0xDFFF is index 8191, and 0xE000 to 0xFDFF, where the
console has a mirror, is unmapped for reads and writes. [R46] -/
def Obligations.WorkRamReadsBackWhatWasStored : Prop :=
  (∀ (s : State) (addr : Addr) (v : Byte), InWram addr →
      ∃ t, busWrite s addr v = .ok t ∧ ∀ other, busRead t other = if other = addr then .ok v else busRead s other) ∧
    wramIndex 0xC000 = 0 ∧ wramIndex 0xDFFF = 8191 ∧
    ∀ (s : State) (addr : Addr) (v : Byte), 0xE000 ≤ addr.toNat → addr.toNat ≤ 0xFDFF →
      busRead s addr = .fault (.busUnmapped addr .read) ∧ busWrite s addr v = .fault (.busUnmapped addr .write)

/-- 0x0000 to 0x1FFF: ram_gate is whether the low nibble is 0b1010. 0x2000 to 0x3FFF: bank1 is the value mod 32, with 0
replaced by 1. 0x4000 to 0x5FFF: bank2 is the value mod 4. 0x6000 to 0x7FFF: mode is whether the value is odd. The other
three fields are unchanged. Outside 0x0000 to 0x7FFF: ControllerNotOwned(addr). [R48, R49, R50, R51, R52] -/
def Obligations.Mbc1WriteSetsOneFieldFromTheByte : Prop :=
  ∀ (m : Mbc1) (addr : Addr) (v : Byte),
    (addr.toNat ≤ 0x1FFF → mbc1Write m addr v = .ok { m with ramGate := decide (v.toNat % 16 = 10) }) ∧
      (0x2000 ≤ addr.toNat → addr.toNat ≤ 0x3FFF →
        ∃ n, mbc1Write m addr v = .ok { m with bank1 := n } ∧
          n.toNat = if v.toNat % 32 = 0 then 1 else v.toNat % 32) ∧
      (0x4000 ≤ addr.toNat → addr.toNat ≤ 0x5FFF →
        ∃ n, mbc1Write m addr v = .ok { m with bank2 := n } ∧ n.toNat = v.toNat % 4) ∧
      (0x6000 ≤ addr.toNat → addr.toNat ≤ 0x7FFF → mbc1Write m addr v = .ok { m with mode := decide (v.toNat % 2 = 1) }) ∧
      (0x7FFF < addr.toNat → mbc1Write m addr v = .fault (.controllerNotOwned addr))

/-- A sequence of writes, all within 0x0000 to 0x7FFF, succeeds, and each field afterwards is the value the last write
to its region gives it, or its old value if there was none: the state depends only on the last write to each region.
[20_memory.md section 3 (rule R47)] -/
def Obligations.Mbc1StateIsTheLastWritePerRegion : Prop :=
  ∀ (m : Mbc1) (ws : List (Addr × Byte)), (∀ w ∈ ws, InCart w.1) →
    mbc1WriteAll m ws = .ok
      { ramGate := ((lastWriteTo 0 ws).map ramGateOf).getD m.ramGate
        bank1 := ((lastWriteTo 1 ws).map bank1Of).getD m.bank1
        bank2 := ((lastWriteTo 2 ws).map bank2Of).getD m.bank2
        mode := ((lastWriteTo 3 ws).map modeOf).getD m.mode }

/-- 0x0000 to 0x3FFF: bank 0 when mode is false, bank2 * 32 when it is true. 0x4000 to 0x7FFF: bank2 * 32 + bank1,
whatever mode is. ram_gate takes no part. Any other address: ControllerBadQuery(addr); that this is a fault is the
spec's own decision D11 (60_exceptions.md rule R204; log 13). [20_memory.md section 4 (rule R53), 60_exceptions.md
section 1, 92_eei_decisions.md D11] -/
def Obligations.ActiveRomBankByWindow : Prop :=
  ∀ (m : Mbc1) (addr : Addr),
    (addr.toNat ≤ 0x3FFF → ∃ bank, activeRomBank m addr = .ok bank ∧
        bank.toNat = if m.mode then m.bank2.toNat * 32 else 0) ∧
      (0x4000 ≤ addr.toNat → addr.toNat ≤ 0x7FFF →
        ∃ bank, activeRomBank m addr = .ok bank ∧ bank.toNat = m.bank2.toNat * 32 + m.bank1.toNat) ∧
      (0x7FFF < addr.toNat → activeRomBank m addr = .fault (.controllerBadQuery addr)) ∧
      ∀ gate, activeRomBank { m with ramGate := gate } addr = activeRomBank m addr

/-- With bank1 not 0 (the invariant every step keeps), no address of 0x4000 to 0x7FFF resolves to bank 0x00, 0x20, 0x40
or 0x60; requesting one of them, a byte with five low zero bits written to the bank1 region, shows the next bank up;
each of them shows through the bank-0 window when mode is true. [R54] -/
def Obligations.BanksUnreachableThroughSwitchableWindow : Prop :=
  (∀ (m : Mbc1) (addr : Addr) (bank : BitVec 7), m.bank1 ≠ 0 → 0x4000 ≤ addr.toNat → activeRomBank m addr = .ok bank →
      bank ≠ 0x00 ∧ bank ≠ 0x20 ∧ bank ≠ 0x40 ∧ bank ≠ 0x60) ∧
    (∀ (m m' : Mbc1) (reg addr : Addr) (v : Byte), 0x2000 ≤ reg.toNat → reg.toNat ≤ 0x3FFF → v.toNat % 32 = 0 →
      0x4000 ≤ addr.toNat → addr.toNat ≤ 0x7FFF → mbc1Write m reg v = .ok m' →
      ∃ bank, activeRomBank m' addr = .ok bank ∧ bank.toNat = m.bank2.toNat * 32 + 1) ∧
    ∀ (m : Mbc1) (addr : Addr), addr.toNat ≤ 0x3FFF → m.mode = true →
      ∃ bank, activeRomBank m addr = .ok bank ∧ bank.toNat = m.bank2.toNat * 32

/-- For an address in 0x0000 to 0x7FFF whose active bank is given by the MBC1, the physical index is the bank times
0x4000 plus the address mod 0x4000, below 0x200000; when it is below ROM_LEN the Bus read returns the image byte there.
The read path is the spec's own decision D2 (log 7). [20_memory.md section 4, 92_eei_decisions.md D2] -/
def Obligations.RomReadPath : Prop :=
  ∀ (s : State) (addr : Addr), InCart addr →
    ∃ bank, activeRomBank s.mbc1 addr = .ok bank ∧
      (physIndex bank addr).toNat = bank.toNat * 0x4000 + addr.toNat % 0x4000 ∧
      (physIndex bank addr).toNat < 0x200000 ∧
      (bank.toNat * 0x4000 + addr.toNat % 0x4000 < s.cart.len →
        busRead s addr = .ok (s.cart.byte (bank.toNat * 0x4000 + addr.toNat % 0x4000)))

/-- When the physical index is not below ROM_LEN: under Error the read raises RomOutOfRange(addr, bank, phys); under
Wrap it returns the byte at the index modulo ROM_LEN, or raises the fault if the image is empty; under another policy
(log 5) it returns some byte. [20_memory.md section 4, 60_exceptions.md section 1, 92_eei_decisions.md D3] -/
def Obligations.RomBeyondImageFollowsThePolicy : Prop :=
  ∀ (s : State) (addr : Addr) (bank : BitVec 7), InCart addr → activeRomBank s.mbc1 addr = .ok bank →
    s.cart.len ≤ (physIndex bank addr).toNat →
    (s.cart.oob = .error → busRead s addr = .fault (.romOutOfRange addr bank (physIndex bank addr))) ∧
      (s.cart.oob = .wrap → s.cart.len ≠ 0 →
        busRead s addr = .ok (s.cart.byte ((bank.toNat * 0x4000 + addr.toNat % 0x4000) % s.cart.len))) ∧
      (s.cart.oob = .wrap → s.cart.len = 0 → busRead s addr = .fault (.romOutOfRange addr bank (physIndex bank addr))) ∧
      (s.cart.oob = .other → ∃ v, busRead s addr = .ok v)

/-- A Bus write that succeeds leaves the cartridge as it was, and one into 0x0000 to 0x7FFF leaves the work RAM as it
was too: the byte is stored nowhere. A step that completes leaves the cartridge as it was, and after any number of steps
it still is. [R24] -/
def Obligations.RomIsNeverWritten : Prop :=
  (∀ (s t : State) (addr : Addr) (v : Byte), busWrite s addr v = .ok t →
      t.cart = s.cart ∧ (InCart addr → t.wram = s.wram)) ∧
    (∀ s t, step s = .next t → t.cart = s.cart) ∧
    ∀ (n : Nat) (s t : State), runWithGas n s = .stopped t → t.cart = s.cart

/-- For every instruction, with every value of its operand, followed by any bytes: it is well-formed, and decoding its
encoding followed by those bytes gives the instruction and those bytes. [30_encoding.md sections 1 to 3] -/
def Obligations.DecodeInvertsEncode : Prop :=
  ∀ (i : Instr) (rest : List Byte), i.wf = true ∧ decode (encode i ++ rest) = .instr i rest

/-- If decoding a byte sequence gives an instruction and a rest, the sequence is the encoding of the instruction
followed by the rest: no two encodings stand for one instruction and no bit is ignored. [30_encoding.md sections 1 to 4]
-/
def Obligations.EncodeInvertsDecode : Prop :=
  ∀ (bytes rest : List Byte) (i : Instr), decode bytes = .instr i rest → bytes = encode i ++ rest

/-- For every instruction the bytes built from the bit fields of rule R84 and the register codes of rule R13 are the
bytes of its opcode in the map of rule R90 with its operand bytes; and a line of assembler text is well-formed exactly
when it is the notation of some instruction. Both descriptions are the spec's general knowledge (decision D1, log 6).
[30_encoding.md sections 1 and 3, 92_eei_decisions.md D1] -/
def Obligations.BitFieldsAgreeWithTheOpcodeMap : Prop :=
  (∀ i : Instr, i.source.encode = some (encode i)) ∧ ∀ src : Source, src.wf = true ↔ ∃ i : Instr, i.source = src

/-- Of the 256 opcode bytes exactly 80 have a table entry; the 80 keys of the table are distinct, and two different
opcode bytes never decode to one instruction, whatever bytes follow them; 0x00, 0x76 and 0xCB are among the 176. The
byte values are decision D1 (log 6). [30_encoding.md sections 3 and 4, 92_eei_decisions.md D1, D8] -/
def Obligations.EightyOpcodesAreImplemented : Prop :=
  ((List.range 256).filter fun n => (opcodeEntry (BitVec.ofNat 8 n)).isSome).length = 80 ∧ opcodeTable.length = 80 ∧
    (opcodeTable.map Prod.fst).Nodup ∧ (opcodeEntry 0x00).isNone ∧ (opcodeEntry 0x76).isNone ∧ (opcodeEntry 0xCB).isNone ∧
    ∀ (op op' : Byte) (bytes bytes' rest rest' : List Byte) (i : Instr),
      decode (op :: bytes) = .instr i rest → decode (op' :: bytes') = .instr i rest' → op = op'

/-- Bytes 41, 06 B7, 46, 70, 36 E7, 02, 1A, C3 50 01, EA 34 D2, FA 34 D2, E2 and F2 decode to LD B,C; LD B,0xB7; LD
B,[HL]; LD [HL],B; LD [HL],0xE7; LD [BC],A; LD A,[DE]; JP 0x0150; LD [0xD234],A; LD A,[0xD234]; LD [C],A and LD A,[C].
The byte values are decision D1 (log 6). [30_encoding.md section 3, 92_eei_decisions.md D1] -/
def Obligations.SampleWordsDecodeAsTheMapSays : Prop :=
  decode [0b01000001] = .instr .ldBC [] ∧ decode [0b00000110, 0xB7] = .instr (.ldBN 0xB7) [] ∧
    decode [0b01000110] = .instr .ldBMemHL [] ∧ decode [0b01110000] = .instr .ldMemHLB [] ∧
    decode [0b00110110, 0xE7] = .instr (.ldMemHLN 0xE7) [] ∧ decode [0b00000010] = .instr .ldMemBCA [] ∧
    decode [0b00011010] = .instr .ldAMemDE [] ∧ decode [0b11000011, 0x50, 0x01] = .instr (.jp 0x0150) [] ∧
    decode [0b11101010, 0x34, 0xD2] = .instr (.ldMemNNA 0xD234) [] ∧
    decode [0b11111010, 0x34, 0xD2] = .instr (.ldAMemNN 0xD234) [] ∧
    decode [0b11100010] = .instr .ldMemCA [] ∧ decode [0b11110010] = .instr .ldAMemC []

/-- nn assembled from its two bytes is 256 times the second plus the first; bytes 0x50 0x01 give 0x0150. The operand
bytes of jp, ldMemNNA and ldAMemNN are the low byte of nn and then the high byte, after the opcode in the encoding. An
opcode with a 16-bit immediate and two bytes decodes to its instruction with nn assembled from them, and the fetch of 16
bits assembles the bytes at pc and pc + 1. The three instructions use nn as the absolute address it is, wherever they
stand. [R87] -/
def Obligations.ImmediateWordIsLittleEndian : Prop :=
  (∀ lo hi : Byte, (wordOfBytes lo hi).toNat = hi.toNat * 256 + lo.toNat) ∧
    (∀ nn : Addr, wordOfBytes (lowByte nn) (highByte nn) = nn) ∧ wordOfBytes 0x50 0x01 = 0x0150 ∧
    (∀ nn : Addr, ∀ i ∈ [Instr.jp nn, .ldMemNNA nn, .ldAMemNN nn],
      i.operandBytes = [lowByte nn, highByte nn] ∧ encode i = [i.opcode, lowByte nn, highByte nn]) ∧
    (∀ (op lo hi : Byte) (mk : Addr → Instr), opcodeEntry op = some (.opNN mk) →
      decode [op, lo, hi] = .instr (mk (wordOfBytes lo hi)) []) ∧
    (∀ (s : State) (lo hi : Byte), busRead s s.pc = .ok lo → busRead s (s.pc + 1) = .ok hi →
      fetch16 s = .got (wordOfBytes lo hi) { s with pc := s.pc + 2 }) ∧
    ∀ (nn : Addr) (s : State), exec (.jp nn) s = .next { s with pc := nn, cycles := 4 } ∧
      dataAccess (.ldMemNNA nn) s = some (.write nn s.a) ∧ dataAccess (.ldAMemNN nn) s = some (.read nn)

/-- When the bytes read through the Bus at pc, pc + 1, ... (modulo 65536) decode to an instruction and nothing is left
over, the step is exec of that instruction at the state with pc moved past those bytes. [30_encoding.md section 6] -/
def Obligations.StepRunsTheDecodedInstruction : Prop :=
  ∀ (s : State) (bytes : List Byte) (i : Instr), decode bytes = .instr i [] →
    (∀ (k : Nat) (h : k < bytes.length), busRead s (s.pc + BitVec.ofNat 16 k) = .ok bytes[k]) →
    step s = exec i { s with pc := s.pc + BitVec.ofNat 16 bytes.length }

/-- A step ends in DecodeFault(op, p) if and only if op was read at pc, has no table entry, and p is that pc; then the
opcode read is the only Bus transaction. No instruction raises it. [R201] -/
def Obligations.DecodeFaultExactlyOnUnimplementedOpcodes : Prop :=
  (∀ (s : State) (op : Byte) (p : Addr),
      step s = .fault (.decodeFault op p) ↔ busRead s s.pc = .ok op ∧ opcodeEntry op = none ∧ p = s.pc) ∧
    (∀ (s : State) (op : Byte), busRead s s.pc = .ok op → opcodeEntry op = none → transactions s = [.read s.pc]) ∧
    ∀ (i : Instr) (s : State) (op : Byte) (p : Addr), exec i s ≠ .fault (.decodeFault op p)

/-- Every step answers a next state or a fault, never a refusal. A DecodeFault means an unimplemented opcode at pc; a
BusUnmapped names an address outside both mapped ranges; RomOutOfRange names an address of the cartridge range whose
index in its active bank is not below ROM_LEN, under Error or under Wrap with an empty image; ControllerNotOwned and
ControllerBadQuery are never raised by a step. That a step completes or raises exactly one fault, and which faults there
are, is rule R200's. When RomOutOfRange is raised is decision D3 (20_memory.md rule R56, 60_exceptions.md rule R205)
with the policies of the model's design choice (log 5), its bank and index are decision D2 (log 7), and
ControllerBadQuery as a fault is decision D11 (log 13). [60_exceptions.md section 1, 20_memory.md section 4,
92_eei_decisions.md D2, D3, D11] -/
def Obligations.EveryStepCompletesOrHasANamedFault : Prop :=
  ∀ s : State, (∃ t, step s = .next t) ∨ ∃ f, step s = .fault f ∧
    match f with
    | .decodeFault op p => p = s.pc ∧ busRead s s.pc = .ok op ∧ opcodeEntry op = none
    | .busUnmapped addr _ => ¬Mapped addr
    | .controllerNotOwned _ => False
    | .controllerBadQuery _ => False
    | .romOutOfRange addr bank phys =>
      InCart addr ∧ activeRomBank s.mbc1 addr = .ok bank ∧ phys = physIndex bank addr ∧ s.cart.len ≤ phys.toNat ∧
        (s.cart.oob = .error ∨ s.cart.oob = .wrap ∧ s.cart.len = 0)

/-- The transactions of a step are at most four, only the last may be a write. If the step completes, performing them in
order from the start state succeeds and leaves the same MBC1, work RAM and cartridge; if it faults, either performing
them raises that fault, or the only one is the opcode read and the fault is the DecodeFault of its byte. The spec marks
the transaction table and the priority rule as its derivations (20_memory.md rule R64, 60_exceptions.md rule R209,
"derived"). [20_memory.md section 5, 60_exceptions.md section 2] -/
def Obligations.StepIsItsBusTransactions : Prop :=
  ∀ s : State, (transactions s).length ≤ 4 ∧
    (∀ pre x, transactions s = pre ++ [x] → ∀ y ∈ pre, ∃ addr, y = .read addr) ∧
    (∀ t, step s = .next t → ∃ u, performAll s (transactions s) = .ok u ∧
      u.mbc1 = t.mbc1 ∧ u.wram = t.wram ∧ u.cart = t.cart) ∧
    ∀ f, step s = .fault f → performAll s (transactions s) = .fault f ∨
      ∃ op, f = .decodeFault op s.pc ∧ busRead s s.pc = .ok op ∧ opcodeEntry op = none ∧ transactions s = [.read s.pc]

/-- When a step faults, the state it had reached is the start state but for pc, which is pc0, pc0 + 1, pc0 + 2 or pc0 +
3, and pc0 + 1 for DecodeFault. The spec marks this as derived and lets no claim about a run rest on it (decision D17;
log 9). [60_exceptions.md section 2, 92_eei_decisions.md D17] -/
def Obligations.FaultLeavesEverythingButPc : Prop :=
  ∀ (s : State) (f : Fault), step s = .fault f →
    stateAtFault s = { s with pc := (stateAtFault s).pc } ∧
      ((stateAtFault s).pc = s.pc ∨ (stateAtFault s).pc = s.pc + 1 ∨ (stateAtFault s).pc = s.pc + 2 ∨ (stateAtFault s).pc = s.pc + 3) ∧
      ∀ op p, f = .decodeFault op p → (stateAtFault s).pc = s.pc + 1

/-- At reset the work RAM and the image are in canonical form, bank1 is not 0 and the cost field is legal. Reset's open
values are the model's choices (logs 1 to 5, 8). [10_state.md sections 4, 5 and 7] -/
def Obligations.ResetIsLegal : Prop :=
  State.reset.Legal

/-- A System constructed from any value of a, any policy and any image has its arrays in canonical form (the model's
representation, logs 1 and 3), bank1 not 0 and a legal cost field (log 8). [10_state.md sections 4, 5 and 7] -/
def Obligations.ConstructedSystemsAreLegal : Prop :=
  ∀ (aReset : Byte) (oob : RomOobPolicy) (image : List Byte), (State.construct aReset oob image).Legal

/-- From every state that meets it, a step that completes leaves a state that meets it: bank1 not 0, the work RAM and
the image canonical (the model's representation, logs 1 and 3), the cost returned at most 4 (log 8). [10_state.md
sections 4 and 5, 70_reset_and_hazards.md section 6] -/
def Obligations.StepKeepsTheStateLegal : Prop :=
  ∀ s t : State, s.Legal → step s = .next t → t.Legal

/-- If a step completes, the byte at pc is the opcode of some instruction; unless that is JP, pc afterwards is pc0 plus
its length modulo 65536; if it is JP, pc is the word in its two operand bytes. [R16] -/
def Obligations.PcChangesByLengthOrJump : Prop :=
  ∀ s t : State, step s = .next t →
    ∃ i : Instr, busRead s s.pc = .ok i.opcode ∧
      ((∀ nn, i ≠ .jp nn) → t.pc = s.pc + BitVec.ofNat 16 i.length) ∧
      ∀ nn, i = .jp nn → busRead s (s.pc + 1) = .ok (lowByte nn) ∧ busRead s (s.pc + 2) = .ok (highByte nn) ∧ t.pc = nn

/-- An instruction that completes returns: LD r,r' 1; LD r,n 2; LD r,[HL] 2; LD [HL],r 2; LD [HL],n 3; the BC and DE
forms 2; JP nn 4; the nn forms 4; whatever the operands, the addresses and the region. The [C] forms never complete.
These are all the instructions. [R258] -/
def Obligations.CostsOfEachClass : Prop :=
  (∀ (dst r : Reg) (s t : State), exec (.ldRR dst r) s = .next t → t.cycles = 1) ∧
    (∀ (dst : Reg) (n : Byte) (s t : State), exec (.ldRN dst n) s = .next t → t.cycles = 2) ∧
    (∀ (r : Reg) (s t : State), exec (.ldRMemHL r) s = .next t ∨ exec (.ldMemHLR r) s = .next t → t.cycles = 2) ∧
    (∀ (n : Byte) (s t : State), exec (.ldMemHLN n) s = .next t → t.cycles = 3) ∧
    (∀ i ∈ [Instr.ldMemBCA, .ldAMemBC, .ldMemDEA, .ldAMemDE], ∀ s t : State, exec i s = .next t → t.cycles = 2) ∧
    (∀ (nn : Addr) (s t : State),
      exec (.jp nn) s = .next t ∨ exec (.ldMemNNA nn) s = .next t ∨ exec (.ldAMemNN nn) s = .next t → t.cycles = 4) ∧
    (∀ s t : State, exec .ldMemCA s ≠ .next t ∧ exec .ldAMemC s ≠ .next t) ∧
    ∀ i : Instr, (∃ dst r, i = .ldRR dst r) ∨ (∃ dst n, i = .ldRN dst n) ∨ (∃ r, i = .ldRMemHL r) ∨ (∃ r, i = .ldMemHLR r) ∨
      (∃ n, i = .ldMemHLN n) ∨ i ∈ [Instr.ldMemBCA, .ldAMemBC, .ldMemDEA, .ldAMemDE, .ldMemCA, .ldAMemC] ∨
      ∃ nn, i = .jp nn ∨ i = .ldMemNNA nn ∨ i = .ldAMemNN nn

/-- If a step completes, the cost it returns is the number of its Bus transactions, except for JP, which has three and
costs four. The spec marks this as its derivation. [70_reset_and_hazards.md section 6, 20_memory.md section 5] -/
def Obligations.CostIsTheTransactionCountButForJump : Prop :=
  ∀ s t : State, step s = .next t →
    (busRead s s.pc = .ok (Instr.jp 0).opcode ∧ (transactions s).length = 3 ∧ t.cycles = 4) ∨
      (busRead s s.pc ≠ .ok (Instr.jp 0).opcode ∧ t.cycles.toNat = (transactions s).length)

/-- Two states that differ only in the value the last step returned step alike: the same fault, or next states equal in
every field. The field is the model's own (log 8). [70_reset_and_hazards.md section 6, 10_state.md section 6] -/
def Obligations.LastCostIsNeverRead : Prop :=
  ∀ s t : State, SameBlock s t → step s = step t

/-- A step on the same state with ram_gate set otherwise does the same: the same fault, or next states that differ at
most in ram_gate. The spec marks this as its derivation (10_state.md rule R19, "derived"). [10_state.md section 4,
20_memory.md section 4] -/
def Obligations.RamGateIsUnobservable : Prop :=
  ∀ (s : State) (gate : Bool),
    (∀ f, step s = .fault f → step { s with mbc1 := { s.mbc1 with ramGate := gate } } = .fault f) ∧
      ∀ t, step s = .next t →
        ∃ gate', step { s with mbc1 := { s.mbc1 with ramGate := gate } } = .next { t with mbc1 := { t.mbc1 with ramGate := gate' } }

/-- Where the addresses of the instruction's own one, two or three bytes are mapped, the last mapped addresses among
them, after loading the table word of an instruction at pc the next step is exec of that instruction at the loaded state
with pc past its bytes; loading changes no register, not pc and not the MBC1. [30_encoding.md section 6,
70_reset_and_hazards.md section 1] -/
def Obligations.LoadedWordRunsNext : Prop :=
  ∀ (s : State) (i : Instr) (w : Nat), (∀ k, k < i.length → Mapped (s.pc + BitVec.ofNat 16 k)) →
    decodeTableWord (8 * i.length) w = some i →
    let t := s.withFetchWord (8 * i.length) w
    step t = exec i { t with pc := s.pc + BitVec.ofNat 16 i.length } ∧ t = { s with wram := t.wram, cart := t.cart }

/-- Limited(0) performs no step and changes nothing; a run with gas n + 1 performs one step and goes on with n, or ends
with the fault of that step; so the run with gas n is n steps of the machine: it stops in the state they reach, or ends
with the first fault; it never is still running. [R234] -/
def Obligations.GasBoundsTheRun : Prop :=
  (∀ s, runWithGas 0 s = .stopped s) ∧
    (∀ n s t, step s = .next t → runWithGas (n + 1) s = runWithGas n t) ∧
    (∀ n s f, step s = .fault f → runWithGas (n + 1) s = .faulted f) ∧
    (∀ n s, (∃ t, core.run n s = .next t ∧ runWithGas n s = .stopped t) ∨
      ∃ f, core.run n s = .fault f ∧ runWithGas n s = .faulted f) ∧
    ∀ n k s, runLoop (n + k) (.limited n) s = runWithGas n s

/-- If the run with gas a stops in a state, the run with gas a + b is the run with gas b from that state; if it faults,
so does the run with gas a + b. The spec marks this as its derivation. [70_reset_and_hazards.md section 2] -/
def Obligations.GasAddsUp : Prop :=
  ∀ (a b : Nat) (s : State),
    (∀ t, runWithGas a s = .stopped t → runWithGas (a + b) s = runWithGas b t) ∧
      ∀ f, runWithGas a s = .faulted f → runWithGas (a + b) s = .faulted f

/-- Observed for any number of passes, an unlimited run is not stopped; it is still running exactly when that many steps
complete, and it has faulted exactly when a limited run of that length has, with the same fault. [R235] -/
def Obligations.UnlimitedRunEndsOnlyByFault : Prop :=
  ∀ (k : Nat) (s : State), (∀ t, runForever k s ≠ .stopped t) ∧
    (∀ t, runForever k s = .running .unlimited t ↔ runWithGas k s = .stopped t) ∧
    ∀ f, runForever k s = .faulted f ↔ runWithGas k s = .faulted f

/-- If the bytes at pc are JP to pc itself, every run with gas at least one stops in the start state with cost 4
returned, whatever the gas. The spec marks the idiom as its derivation. [70_reset_and_hazards.md section 2, 44_jp_nn.md]
-/
def Obligations.JumpToItselfIsTheEndOfRunIdiom : Prop :=
  ∀ (s : State) (n : Nat), busRead s s.pc = .ok (Instr.jp s.pc).opcode → busRead s (s.pc + 1) = .ok (lowByte s.pc) →
    busRead s (s.pc + 2) = .ok (highByte s.pc) → runWithGas (n + 1) s = .stopped { s with cycles := 4 }

/-- For an input of at least 80 bytes the recomputed checksum plus the sum of the 25 bytes plus 25 is 0 modulo 256, and
it depends on those bytes only. The spec marks the closed form as its derivation. [70_reset_and_hazards.md section 4] -/
def Obligations.HeaderChecksumClosedForm : Prop :=
  ∀ input : List Byte, headerLength ≤ input.length →
    ((headerChecksum input).toNat + ((headerField input 0x134 25).map BitVec.toNat).sum + 25) % 256 = 0 ∧
      (headerField input 0x134 25).length = 25

/-- If the input has 80 bytes or more, the title decodes, the type code is known and both size codes are legal, the
parser returns the header with the trimmed title, the type, the bank counts, the version byte, and the validation
record: the logo comparison, Ok of the stored checksum byte exactly when the recomputed one equals it, otherwise
Mismatch with actual the recomputed byte and expected the stored one, and the big-endian global checksum. Which of the
two fields is the stored byte is the spec's own decision D19, and reading the first 80 bytes of longer input is D18 (log
11). [70_reset_and_hazards.md section 4, 92_eei_decisions.md D18, D19] -/
def Obligations.HeaderAdvisoryFieldsNeverBlock : Prop :=
  ∀ (p : HeaderParams) (input : List Byte) (text : List Char) (ty : CartridgeType) (rom ram : Nat),
    80 ≤ input.length → p.decodeTitle ((input.drop 52).take 16) = some text → p.cartType (input.getD 71 0) = some ty →
    parseRomBanks (input.getD 72 0) = some rom → parseRamBanks (input.getD 73 0) = some ram →
    ∃ h, parseHeader p input = .parsed h ∧ h.title = trimEnd p.isTrimmed text ∧ h.cartridgeType = ty ∧ h.romBanks = rom ∧
      h.ramBanks = ram ∧ h.version = input.getD 76 0 ∧
      (h.validation.logoValid = true ↔ (input.drop 4).take 48 = p.logo) ∧
      (h.validation.headerChecksum = .ok (input.getD 77 0) ↔ headerChecksum input = input.getD 77 0) ∧
      (headerChecksum input ≠ input.getD 77 0 →
        h.validation.headerChecksum = .mismatch (headerChecksum input) (input.getD 77 0)) ∧
      h.validation.globalChecksum.toNat = (input.getD 78 0).toNat * 256 + (input.getD 79 0).toNat

/-- parse_rom_banks of a code 0 to 8 is 2 << code, and of every other code there is none. parse_ram_banks of the codes
0, 2, 3, 4, 5 is 0, 1, 4, 16, 8 banks; of code 1 and every code from 6 on there is none. A header with an illegal size
code, at offset 0x148 or 0x149, is never parsed. [R244, R245] -/
def Obligations.HeaderSizeCodes : Prop :=
  (∀ code : Byte, (code.toNat ≤ 8 → parseRomBanks code = some (2 <<< code.toNat)) ∧
      (8 < code.toNat → parseRomBanks code = none)) ∧
    (∀ code : Byte, parseRamBanks code =
      match code.toNat with
      | 0 => some 0
      | 2 => some 1
      | 3 => some 4
      | 4 => some 16
      | 5 => some 8
      | _ => none) ∧
    ∀ (p : HeaderParams) (input : List Byte),
      parseRomBanks (input.getD 72 0) = none ∨ parseRamBanks (input.getD 73 0) = none →
      ∀ h, parseHeader p input ≠ .parsed h

/-- Input shorter than 80 bytes gives the error that names 80 and its length; on longer input the parser answers what it
answers on the first 80 bytes, and then: a title that does not decode is the error; else an unknown type code; else a
ROM size code above 8; else an illegal RAM size code; each names its code. Ignoring the bytes after the first 80 and the
order are the spec's own decisions D18 and D20 (log 11). [70_reset_and_hazards.md section 4, 92_eei_decisions.md D18,
D20] -/
def Obligations.HeaderErrorsInOrder : Prop :=
  ∀ (p : HeaderParams) (input : List Byte),
    (input.length < 80 → parseHeader p input = .failed (.tooShort 80 input.length)) ∧
      (80 ≤ input.length → parseHeader p input = parseHeader p (input.take 80) ∧
        (p.decodeTitle ((input.drop 52).take 16) = none → parseHeader p input = .failed .badTitle) ∧
        ∀ text, p.decodeTitle ((input.drop 52).take 16) = some text →
          (p.cartType (input.getD 71 0) = none →
            parseHeader p input = .failed (.unknownCartridgeType (input.getD 71 0))) ∧
          ∀ ty, p.cartType (input.getD 71 0) = some ty →
            (parseRomBanks (input.getD 72 0) = none → parseHeader p input = .failed (.badRomSize (input.getD 72 0))) ∧
            ∀ rom, parseRomBanks (input.getD 72 0) = some rom → parseRamBanks (input.getD 73 0) = none →
              parseHeader p input = .failed (.badRamSize (input.getD 73 0)))
end

