-- ==== Sys2Proof/Laws/Memory.lean ====
section
/-! SUPPORT. The byte arrays: reading after writing, and every operation keeps the canonical form. -/

namespace Sys2Proof.Machine

@[simp] theorem Memory.read_nil (i : Nat) : Memory.read [] i = none := rfl

theorem Memory.read_cons (k : Nat) (w : Byte) (m : Memory) (i : Nat) :
    Memory.read ((k, w) :: m) i = if k = i then some w else Memory.read m i := rfl

theorem Memory.read_insertCell (m : Memory) (i j : Nat) (v : Byte) :
    Memory.read (Memory.insertCell m i v) j = if i = j then some v else Memory.read m j := by
  induction m with
  | nil => rfl
  | cons kw m ih =>
    obtain ⟨k, w⟩ := kw
    simp only [Memory.insertCell]
    split
    · rfl
    · split
      · subst_vars
        simp only [Memory.read_cons]
        split <;> rfl
      · simp only [Memory.read_cons, ih]
        split <;> split <;> first | rfl | omega

theorem Memory.read_removeCell (m : Memory) (i j : Nat) :
    Memory.read (Memory.removeCell m i) j = if i = j then none else Memory.read m j := by
  induction m with
  | nil => simp [Memory.removeCell]
  | cons kw m ih =>
    obtain ⟨k, w⟩ := kw
    simp only [Memory.removeCell]
    split
    · subst_vars
      rw [ih, Memory.read_cons]
      split <;> rfl
    · simp only [Memory.read_cons, ih]
      split <;> split <;> first | rfl | omega

theorem Memory.wfFrom_mono {size : Nat} {u : Option Byte} {lo lo' : Nat} {m : Memory} (h : lo' ≤ lo)
    (hm : Memory.wfFrom size u lo m = true) : Memory.wfFrom size u lo' m = true := by
  cases m with
  | nil => rfl
  | cons kw m =>
    obtain ⟨k, w⟩ := kw
    simp only [Memory.wfFrom, Bool.and_eq_true, decide_eq_true_eq] at hm ⊢
    exact ⟨⟨⟨by omega, hm.1.1.2⟩, hm.1.2⟩, hm.2⟩

theorem Memory.wfFrom_insertCell {size : Nat} {u : Option Byte} {i : Nat} {v : Byte} (hi : i < size) (hv : u ≠ some v)
    {lo : Nat} {m : Memory} (hlo : lo ≤ i) (hm : Memory.wfFrom size u lo m = true) :
    Memory.wfFrom size u lo (Memory.insertCell m i v) = true := by
  induction m generalizing lo with
  | nil => simp [Memory.insertCell, Memory.wfFrom, hi, hv, hlo]
  | cons kw m ih =>
    obtain ⟨k, w⟩ := kw
    simp only [Memory.wfFrom, Bool.and_eq_true, decide_eq_true_eq] at hm
    obtain ⟨⟨⟨h1, h2⟩, h3⟩, h4⟩ := hm
    simp only [Memory.insertCell]
    split
    · simp only [Memory.wfFrom, Bool.and_eq_true, decide_eq_true_eq]
      exact ⟨⟨⟨hlo, hi⟩, hv⟩, ⟨⟨by omega, h2⟩, h3⟩, h4⟩
    · split
      · subst_vars
        simp only [Memory.wfFrom, Bool.and_eq_true, decide_eq_true_eq]
        exact ⟨⟨⟨hlo, hi⟩, hv⟩, h4⟩
      · simp only [Memory.wfFrom, Bool.and_eq_true, decide_eq_true_eq]
        exact ⟨⟨⟨h1, h2⟩, h3⟩, ih (by omega) h4⟩

theorem Memory.wfFrom_removeCell {size : Nat} {u : Option Byte} {i lo : Nat} {m : Memory}
    (hm : Memory.wfFrom size u lo m = true) : Memory.wfFrom size u lo (Memory.removeCell m i) = true := by
  induction m generalizing lo with
  | nil => rfl
  | cons kw m ih =>
    obtain ⟨k, w⟩ := kw
    simp only [Memory.wfFrom, Bool.and_eq_true, decide_eq_true_eq] at hm
    obtain ⟨⟨⟨h1, h2⟩, h3⟩, h4⟩ := hm
    simp only [Memory.removeCell]
    split
    · exact Memory.wfFrom_mono (by omega) (ih h4)
    · simp only [Memory.wfFrom, Bool.and_eq_true, decide_eq_true_eq]
      exact ⟨⟨⟨h1, h2⟩, h3⟩, ih h4⟩

/-- A write keeps the canonical form. -/
theorem Memory.wf_write {size : Nat} {u : Option Byte} {m : Memory} {i : Nat} {v : Byte} (hi : i < size)
    (hm : Memory.wf size u m = true) : Memory.wf size u (Memory.write u m i v) = true := by
  unfold Memory.write
  split
  · exact Memory.wfFrom_removeCell hm
  · exact Memory.wfFrom_insertCell hi ‹_› (Nat.zero_le _) hm

/-- A larger array keeps the canonical form. -/
theorem Memory.wfFrom_size_mono {size size' : Nat} {u : Option Byte} {lo : Nat} {m : Memory} (h : size ≤ size')
    (hm : Memory.wfFrom size u lo m = true) : Memory.wfFrom size' u lo m = true := by
  induction m generalizing lo with
  | nil => rfl
  | cons kw m ih =>
    obtain ⟨k, w⟩ := kw
    simp only [Memory.wfFrom, Bool.and_eq_true, decide_eq_true_eq] at hm ⊢
    exact ⟨⟨⟨hm.1.1.1, by omega⟩, hm.1.2⟩, ih hm.2⟩

/-- Reading a byte of an array after a write, the unlisted byte standing for an index without an entry. -/
theorem Memory.read_write (u : Option Byte) (m : Memory) (i j : Nat) (v : Byte) :
    Memory.read (Memory.write u m i v) j =
      if i = j then (if u = some v then none else some v) else Memory.read m j := by
  unfold Memory.write
  split
  · rw [Memory.read_removeCell]
  · rw [Memory.read_insertCell]

@[simp] theorem wramByte_wramWrite_same (m : Memory) (i : Nat) (v : Byte) : wramByte (wramWrite m i v) i = v := by
  simp [wramByte, wramWrite, wramUnlisted, Memory.read_write]

theorem wramByte_wramWrite_of_ne {m : Memory} {i j : Nat} {v : Byte} (h : j ≠ i) :
    wramByte (wramWrite m i v) j = wramByte m j := by
  have : i ≠ j := fun e => h e.symm
  simp [wramByte, wramWrite, Memory.read_write, this]

theorem wramWrite_wf {size : Nat} {m : Memory} {i : Nat} {v : Byte} (hi : i < size)
    (hm : Memory.wf size wramUnlisted m = true) : Memory.wf size wramUnlisted (wramWrite m i v) = true :=
  Memory.wf_write hi hm

@[simp] theorem Cartridge.byte_load_same (c : Cartridge) (i : Nat) (v : Byte) : (c.load i v).byte i = v := by
  unfold Cartridge.byte Cartridge.load
  simp only [Memory.read_write, if_true]
  split <;> simp_all [romUnlisted]

theorem Cartridge.byte_load_of_ne {c : Cartridge} {i j : Nat} {v : Byte} (h : j ≠ i) :
    (c.load i v).byte j = c.byte j := by
  have : i ≠ j := fun e => h e.symm
  simp [Cartridge.byte, Cartridge.load, Memory.read_write, this]

/-- Loading a byte keeps the image canonical. -/
theorem Cartridge.load_wf {c : Cartridge} {i : Nat} {v : Byte} (h : Memory.wf c.len romUnlisted c.cells = true) :
    Memory.wf (c.load i v).len romUnlisted (c.load i v).cells = true :=
  Memory.wf_write (by simp only [Cartridge.load]; omega)
    (Memory.wfFrom_size_mono (by simp only [Cartridge.load]; omega) h)

/-- Reset memory is canonical. -/
theorem reset_memory_wf :
    Memory.wf Config.wramSize wramUnlisted State.reset.wram = true ∧
      Memory.wf State.reset.cart.len romUnlisted State.reset.cart.cells = true := ⟨rfl, rfl⟩

end Sys2Proof.Machine
end

