-- ==== Sys2Proof/Laws/State.lean ====
section
/-! SUPPORT. One lemma per field per register update. -/

namespace Sys2Proof.Machine

section setReg
variable (s : State) (r : Reg) (v : Byte)

@[simp] theorem State.setReg_f : (s.setReg r v).f = s.f := by cases r <;> rfl
@[simp] theorem State.setReg_pc : (s.setReg r v).pc = s.pc := by cases r <;> rfl
@[simp] theorem State.setReg_mbc1 : (s.setReg r v).mbc1 = s.mbc1 := by cases r <;> rfl
@[simp] theorem State.setReg_wram : (s.setReg r v).wram = s.wram := by cases r <;> rfl
@[simp] theorem State.setReg_cart : (s.setReg r v).cart = s.cart := by cases r <;> rfl
@[simp] theorem State.setReg_cycles : (s.setReg r v).cycles = s.cycles := by cases r <;> rfl
@[simp] theorem State.reg_setReg_same : (s.setReg r v).reg r = v := by cases r <;> rfl

theorem State.reg_setReg_of_ne {r r' : Reg} (h : r' ≠ r) : (s.setReg r v).reg r' = s.reg r' := by
  cases r <;> cases r' <;> first | rfl | exact absurd rfl h

/-- Writing back what a register holds changes nothing. -/
@[simp] theorem State.setReg_reg : s.setReg r (s.reg r) = s := by cases r <;> rfl

end setReg

@[simp] theorem State.reg_pc (s : State) (p : Addr) (r : Reg) : State.reg { s with pc := p } r = s.reg r := by
  cases r <;> rfl

@[simp] theorem State.reg_cycles (s : State) (n : BitVec 8) (r : Reg) : State.reg { s with cycles := n } r = s.reg r := by
  cases r <;> rfl

@[simp] theorem State.reg_wram (s : State) (m : Memory) (r : Reg) : State.reg { s with wram := m } r = s.reg r := by
  cases r <;> rfl

@[simp] theorem State.reg_mbc1 (s : State) (m : Mbc1) (r : Reg) : State.reg { s with mbc1 := m } r = s.reg r := by
  cases r <;> rfl

/-- A compound view as a number: 256 times the high half plus the low half. -/
theorem compound_toNat (high low : Byte) : (compound high low).toNat = high.toNat * 256 + low.toNat := by
  have h1 := high.isLt
  have h2 := low.isLt
  simp only [compound, BitVec.toNat_add, BitVec.toNat_shiftLeft, BitVec.toNat_setWidth, Nat.shiftLeft_eq]
  omega

/-- The high-page address as a number. -/
theorem highPageC_toNat (s : State) : s.highPageC.toNat = 0xFF00 + s.c.toNat := by
  have h := s.c.isLt
  have h' : (0xFF00 : Addr).toNat = 0xFF00 := rfl
  simp only [State.highPageC, BitVec.toNat_add, BitVec.toNat_setWidth, h']
  omega

@[simp] theorem FlagsKept.refl (s : State) : FlagsKept s s := rfl

end Sys2Proof.Machine
end

