-- ==== Sys2Proof/Laws/Bus.lean ====
section
/-! SUPPORT. The MBC1 and the Bus: what each operation can answer. -/

namespace Sys2Proof.Machine

/-- Zero coercion (R49). -/
theorem bank1Of_ne_zero (v : Byte) : bank1Of v ≠ 0 := by revert v; decide

/-- Everything a controller write can do: one field of four, by the address. -/
theorem mbc1Write_ok {m m' : Mbc1} {addr : Addr} {v : Byte} (h : mbc1Write m addr v = .ok m') :
    (addr.toNat ≤ 0x1FFF ∧ m' = { m with ramGate := ramGateOf v }) ∨
      (0x1FFF < addr.toNat ∧ addr.toNat ≤ 0x3FFF ∧ m' = { m with bank1 := bank1Of v }) ∨
      (0x3FFF < addr.toNat ∧ addr.toNat ≤ 0x5FFF ∧ m' = { m with bank2 := bank2Of v }) ∨
      (0x5FFF < addr.toNat ∧ addr.toNat ≤ 0x7FFF ∧ m' = { m with mode := modeOf v }) := by
  unfold mbc1Write at h
  split at h
  · injection h with h; exact .inl ⟨‹_›, h.symm⟩
  · split at h
    · injection h with h; exact .inr (.inl ⟨by omega, ‹_›, h.symm⟩)
    · split at h
      · injection h with h; exact .inr (.inr (.inl ⟨by omega, ‹_›, h.symm⟩))
      · split at h
        · injection h with h; exact .inr (.inr (.inr ⟨by omega, ‹_›, h.symm⟩))
        · cases h

/-- The controller accepts every write of its range. -/
theorem mbc1Write_of_inCart (m : Mbc1) {addr : Addr} (v : Byte) (h : InCart addr) :
    ∃ m', mbc1Write m addr v = .ok m' := by
  unfold mbc1Write
  split
  · exact ⟨_, rfl⟩
  · split
    · exact ⟨_, rfl⟩
    · split
      · exact ⟨_, rfl⟩
      · exact ⟨_, rfl⟩

/-- The bank resolution answers in the controller's range. -/
theorem activeRomBank_of_inCart (m : Mbc1) {addr : Addr} (h : InCart addr) : ∃ bank, activeRomBank m addr = .ok bank := by
  unfold activeRomBank
  split
  · exact ⟨_, rfl⟩
  · exact ⟨_, rfl⟩

theorem bank1_ne_zero_of_mbc1Write {m m' : Mbc1} {addr : Addr} {v : Byte} (h : mbc1Write m addr v = .ok m')
    (hm : m.bank1 ≠ 0) : m'.bank1 ≠ 0 := by
  obtain ⟨_, rfl⟩ | ⟨_, _, rfl⟩ | ⟨_, _, rfl⟩ | ⟨_, _, rfl⟩ := mbc1Write_ok h
  · exact hm
  · exact bank1Of_ne_zero v
  · exact hm
  · exact hm

/-- Everything a Bus write can do. -/
theorem busWrite_ok {s t : State} {addr : Addr} {v : Byte} (h : busWrite s addr v = .ok t) :
    (InCart addr ∧ ∃ m, mbc1Write s.mbc1 addr v = .ok m ∧ t = { s with mbc1 := m }) ∨
      (InWram addr ∧ t = { s with wram := wramWrite s.wram (wramIndex addr) v }) := by
  unfold busWrite at h
  split at h
  · rename_i hc
    obtain ⟨m, hm⟩ := mbc1Write_of_inCart s.mbc1 v hc
    rw [hm] at h
    injection h with h
    exact .inl ⟨hc, m, hm, h.symm⟩
  · split at h
    · injection h with h; exact .inr ⟨‹_›, h.symm⟩
    · cases h

/-- A Bus write faults exactly on the unmapped addresses. -/
theorem busWrite_fault {s : State} {addr : Addr} {v : Byte} {f : Fault} (h : busWrite s addr v = .fault f) :
    ¬InCart addr ∧ ¬InWram addr ∧ f = .busUnmapped addr .write := by
  unfold busWrite at h
  split at h
  · rename_i hc
    obtain ⟨m, hm⟩ := mbc1Write_of_inCart s.mbc1 v hc
    rw [hm] at h
    cases h
  · split at h
    · cases h
    · injection h with h; exact ⟨‹_›, ‹_›, h.symm⟩

theorem busWrite_of_inWram {s : State} {addr : Addr} (v : Byte) (h : InWram addr) :
    busWrite s addr v = .ok { s with wram := wramWrite s.wram (wramIndex addr) v } := by
  have h1 : ¬InCart addr := by have := h.1; unfold InCart; omega
  simp only [busWrite, if_neg h1, if_pos h]

theorem busRead_of_inWram {s : State} {addr : Addr} (h : InWram addr) :
    busRead s addr = .ok (wramByte s.wram (wramIndex addr)) := by
  have h1 : ¬InCart addr := by have := h.1; unfold InCart; omega
  simp only [busRead, if_neg h1, if_pos h]

theorem busRead_of_inCart {s : State} {addr : Addr} (h : InCart addr) :
    busRead s addr = romRead s.cart s.mbc1 addr := by
  simp only [busRead, if_pos h]

/-- A read looks at the two arrays and the MBC1 only. -/
theorem busRead_congr {s t : State} (hm : t.mbc1 = s.mbc1) (hw : t.wram = s.wram) (hc : t.cart = s.cart) (addr : Addr) :
    busRead t addr = busRead s addr := by
  simp only [busRead, hm, hw, hc]

@[simp] theorem busRead_setReg (s : State) (r : Reg) (v : Byte) (addr : Addr) :
    busRead (s.setReg r v) addr = busRead s addr := busRead_congr (by simp) (by simp) (by simp) addr

@[simp] theorem busRead_pc (s : State) (p addr : Addr) : busRead { s with pc := p } addr = busRead s addr := rfl

theorem wramIndex_lt {addr : Addr} (h : InWram addr) : wramIndex addr < Config.wramSize := by
  have := h.1
  have := h.2
  unfold wramIndex Config.wramSize
  omega

/-- A physical index as a number: 16384 times the bank plus the offset in the window. -/
theorem physIndex_toNat (bank : BitVec 7) (addr : Addr) :
    (physIndex bank addr).toNat = bank.toNat * 0x4000 + addr.toNat % 0x4000 := by
  have h1 := bank.isLt
  have h2 : addr.toNat &&& 0x3FFF = addr.toNat % 0x4000 := Nat.and_two_pow_sub_one_eq_mod addr.toNat 14
  have h3 : (0x3FFF : Addr).toNat = 0x3FFF := rfl
  simp only [physIndex, BitVec.toNat_add, BitVec.toNat_shiftLeft, BitVec.toNat_setWidth, BitVec.toNat_and, h3, h2,
    Nat.shiftLeft_eq]
  omega

end Sys2Proof.Machine
end

