-- ==== Sys2Proof/Laws/Ops.lean ====
section
/-! SUPPORT. The shared operations: one lemma each that says everything it can answer. -/

namespace Sys2Proof.Machine

theorem complete_eq_next {s t : State} {n : BitVec 8} : complete s n = .next t ↔ t = { s with cycles := n } := by
  unfold complete
  constructor
  · intro h; injection h with h; exact h.symm
  · rintro rfl; rfl

theorem copyReg_next {dst src : Reg} {s t : State} (h : copyReg dst src s = .next t) :
    t = { s.setReg dst (s.reg src) with cycles := 1 } := complete_eq_next.mp h

theorem loadImm_next {dst : Reg} {n : Byte} {s t : State} (h : loadImm dst n s = .next t) :
    t = { s.setReg dst n with cycles := 2 } := complete_eq_next.mp h

theorem jumpTo_next {nn : Addr} {s t : State} (h : jumpTo nn s = .next t) : t = { s with pc := nn, cycles := 4 } :=
  complete_eq_next.mp h

/-- A load completes exactly when its read does. -/
theorem loadByte_next {dst : Reg} {addr : Addr} {n : BitVec 8} {s t : State} (h : loadByte dst addr n s = .next t) :
    ∃ v, busRead s addr = .ok v ∧ t = { s.setReg dst v with cycles := n } := by
  unfold loadByte at h
  split at h
  · exact ⟨_, ‹_›, complete_eq_next.mp h⟩
  · cases h

theorem loadByte_fault {dst : Reg} {addr : Addr} {n : BitVec 8} {s : State} {f : Fault}
    (h : loadByte dst addr n s = .fault f) : busRead s addr = .fault f := by
  unfold loadByte at h
  split at h
  · cases h
  · injection h with h; subst h; assumption

/-- A store completes exactly when its write does. -/
theorem storeByte_next {addr : Addr} {v : Byte} {n : BitVec 8} {s t : State} (h : storeByte addr v n s = .next t) :
    ∃ u, busWrite s addr v = .ok u ∧ t = { u with cycles := n } := by
  unfold storeByte at h
  split at h
  · exact ⟨_, ‹_›, complete_eq_next.mp h⟩
  · cases h

theorem storeByte_fault {addr : Addr} {v : Byte} {n : BitVec 8} {s : State} {f : Fault}
    (h : storeByte addr v n s = .fault f) : busWrite s addr v = .fault f := by
  unfold storeByte at h
  split at h
  · cases h
  · injection h with h; subst h; assumption

/-- A fetch of one byte that succeeds moves `pc` by one and changes nothing else. -/
theorem fetch8_got {s t : State} {v : Byte} (h : fetch8 s = .got v t) :
    busRead s s.pc = .ok v ∧ t = { s with pc := nextPc s.pc } := by
  unfold fetch8 at h
  split at h
  · injection h with h1 h2; subst h1; exact ⟨‹_›, h2.symm⟩
  · cases h

/-- A fetch of one byte that faults changes nothing. -/
theorem fetch8_raised {s t : State} {f : Fault} (h : fetch8 s = .raised f t) : busRead s s.pc = .fault f ∧ t = s := by
  unfold fetch8 at h
  split at h
  · cases h
  · injection h with h1 h2; subst h1; exact ⟨‹_›, h2.symm⟩

theorem fetch16_got {s t : State} {nn : Addr} (h : fetch16 s = .got nn t) :
    ∃ lo hi, busRead s s.pc = .ok lo ∧ busRead s (nextPc s.pc) = .ok hi ∧ nn = wordOfBytes lo hi ∧
      t = { s with pc := nextPc (nextPc s.pc) } := by
  unfold fetch16 at h
  split at h
  · cases h
  · rename_i h1
    split at h
    · cases h
    · rename_i h2
      obtain ⟨r1, rfl⟩ := fetch8_got h1
      obtain ⟨r2, rfl⟩ := fetch8_got h2
      injection h with h3 h4
      exact ⟨_, _, r1, r2, h3.symm, h4.symm⟩

/-- A completed fetch of an instruction changes `pc` only. -/
theorem fetchInstr_got {s t : State} {i : Instr} (h : fetchInstr s = .got i t) : ∃ p, t = { s with pc := p } := by
  unfold fetchInstr at h
  split at h
  · cases h
  · rename_i h1
    obtain ⟨-, rfl⟩ := fetch8_got h1
    split at h
    · cases h
    · injection h with _ h; exact ⟨_, h.symm⟩
    · split at h
      · cases h
      · rename_i h2
        obtain ⟨-, rfl⟩ := fetch8_got h2
        injection h with _ h; exact ⟨_, h.symm⟩
    · split at h
      · cases h
      · rename_i h2
        obtain ⟨_, _, -, -, -, rfl⟩ := fetch16_got h2
        injection h with _ h; exact ⟨_, h.symm⟩

/-- Placing a byte changes the image or the work RAM, never a register, `pc` or the MBC1. -/
theorem placeByte_cases (s : State) (addr : Addr) (v : Byte) :
    (∃ bank, InCart addr ∧ activeRomBank s.mbc1 addr = .ok bank ∧
        placeByte s addr v = { s with cart := s.cart.load (physIndex bank addr).toNat v }) ∨
      (InWram addr ∧ placeByte s addr v = { s with wram := wramWrite s.wram (wramIndex addr) v }) ∨
      (¬InCart addr ∧ ¬InWram addr ∧ placeByte s addr v = s) := by
  unfold placeByte
  split
  · rename_i hc
    obtain ⟨bank, hb⟩ := activeRomBank_of_inCart s.mbc1 hc
    exact .inl ⟨bank, hc, hb, by rw [hb]⟩
  · split
    · exact .inr (.inl ⟨‹_›, rfl⟩)
    · exact .inr (.inr ⟨‹_›, ‹_›, rfl⟩)

end Sys2Proof.Machine
end

