-- ==== Sys2Proof/Laws/Exec.lean ====
section
/-! SUPPORT. What `exec` and `step` can do, said once: every instruction is one of five shared operations, and a completed or
faulted fetch is read off the Bus. -/

namespace Sys2Proof.Machine

/-- Every instruction is a register copy, an immediate load, a jump, or a load or store of one byte whose Bus transaction
`dataAccess` names. -/
theorem exec_cases (i : Instr) (s : State) :
    (∃ dst src, dataAccess i s = none ∧ exec i s = copyReg dst src s) ∨
      (∃ dst n, dataAccess i s = none ∧ exec i s = loadImm dst n s) ∨
      (∃ nn, i = .jp nn ∧ dataAccess i s = none ∧ exec i s = jumpTo nn s) ∨
      (∃ dst addr cost, dataAccess i s = some (.read addr) ∧ exec i s = loadByte dst addr cost s) ∨
      ∃ addr v cost, dataAccess i s = some (.write addr v) ∧ exec i s = storeByte addr v cost s := by
  cases i <;>
    first
    | exact .inl ⟨_, _, rfl, rfl⟩
    | exact .inr (.inl ⟨_, _, rfl, rfl⟩)
    | exact .inr (.inr (.inl ⟨_, rfl, rfl, rfl⟩))
    | exact .inr (.inr (.inr (.inl ⟨_, _, _, rfl, rfl⟩)))
    | exact .inr (.inr (.inr (.inr ⟨_, _, _, rfl, rfl⟩)))

/-- A load answers a next state or the fault of its read. -/
theorem loadByte_cases (dst : Reg) (addr : Addr) (cost : BitVec 8) (s : State) :
    (∃ v, busRead s addr = .ok v ∧ loadByte dst addr cost s = .next { s.setReg dst v with cycles := cost }) ∨
      ∃ f, busRead s addr = .fault f ∧ loadByte dst addr cost s = .fault f := by
  unfold loadByte
  split
  · exact .inl ⟨_, ‹_›, rfl⟩
  · exact .inr ⟨_, ‹_›, rfl⟩

/-- A store answers a next state or the fault of its write. -/
theorem storeByte_cases (addr : Addr) (v : Byte) (cost : BitVec 8) (s : State) :
    (∃ u, busWrite s addr v = .ok u ∧ storeByte addr v cost s = .next { u with cycles := cost }) ∨
      ∃ f, busWrite s addr v = .fault f ∧ storeByte addr v cost s = .fault f := by
  unfold storeByte
  split
  · exact .inl ⟨_, ‹_›, rfl⟩
  · exact .inr ⟨_, ‹_›, rfl⟩

/-- A completed instruction changes one register, or `pc`, or one byte of work RAM, or one MBC1 register, beside the cost it
returns. -/
theorem exec_next {i : Instr} {s t : State} (h : exec i s = .next t) :
    (∃ r v n, t = { s.setReg r v with cycles := n }) ∨
      (∃ nn, i = .jp nn ∧ t = { s with pc := nn, cycles := 4 }) ∨
      (∃ addr v n m, InCart addr ∧ mbc1Write s.mbc1 addr v = .ok m ∧ t = { s with mbc1 := m, cycles := n }) ∨
      ∃ addr v n, InWram addr ∧ t = { s with wram := wramWrite s.wram (wramIndex addr) v, cycles := n } := by
  obtain ⟨_, _, -, e⟩ | ⟨_, _, -, e⟩ | ⟨nn, rfl, -, e⟩ | ⟨_, _, _, -, e⟩ | ⟨_, _, _, -, e⟩ := exec_cases i s <;>
    rw [e] at h
  · exact .inl ⟨_, _, _, copyReg_next h⟩
  · exact .inl ⟨_, _, _, loadImm_next h⟩
  · exact .inr (.inl ⟨nn, rfl, jumpTo_next h⟩)
  · obtain ⟨v, -, ht⟩ := loadByte_next h
    exact .inl ⟨_, _, _, ht⟩
  · obtain ⟨u, hu, rfl⟩ := storeByte_next h
    obtain ⟨hc, m, hm, rfl⟩ | ⟨hw, rfl⟩ := busWrite_ok hu
    · exact .inr (.inr (.inl ⟨_, _, _, m, hc, hm, rfl⟩))
    · exact .inr (.inr (.inr ⟨_, _, _, hw, rfl⟩))

/-- A faulted instruction's fault is the fault of its data transaction. -/
theorem exec_fault {i : Instr} {s : State} {f : Fault} (h : exec i s = .fault f) :
    ∃ x, dataAccess i s = some x ∧ perform s x = .fault f := by
  obtain ⟨_, _, -, e⟩ | ⟨_, _, -, e⟩ | ⟨_, -, -, e⟩ | ⟨_, _, _, d, e⟩ | ⟨_, _, _, d, e⟩ := exec_cases i s <;> rw [e] at h
  · cases h
  · cases h
  · cases h
  · exact ⟨_, d, by simp only [perform, loadByte_fault h]⟩
  · exact ⟨_, d, storeByte_fault h⟩

/-- No instruction is refused. -/
theorem exec_ne_refused (i : Instr) (s : State) (r : Refusal) : exec i s ≠ .refused r := by
  intro h
  obtain ⟨_, _, -, e⟩ | ⟨_, _, -, e⟩ | ⟨_, -, -, e⟩ | ⟨_, _, _, -, e⟩ | ⟨_, _, _, -, e⟩ := exec_cases i s <;> rw [e] at h
  · cases h
  · cases h
  · cases h
  · obtain ⟨_, -, e⟩ | ⟨_, -, e⟩ := loadByte_cases _ _ _ s <;> rw [e] at h <;> cases h
  · obtain ⟨_, -, e⟩ | ⟨_, -, e⟩ := storeByte_cases _ _ _ s <;> rw [e] at h <;> cases h

/-- A fetch of one byte, by what the Bus answers. -/
theorem fetch8_of_ok {s : State} {v : Byte} (h : busRead s s.pc = .ok v) : fetch8 s = .got v { s with pc := nextPc s.pc } := by
  simp only [fetch8, h]

theorem fetch8_of_fault {s : State} {f : Fault} (h : busRead s s.pc = .fault f) : fetch8 s = .raised f s := by
  simp only [fetch8, h]

/-- A read does not look at `pc`. -/
theorem busRead_withPc (s : State) (p addr : Addr) : busRead { s with pc := p } addr = busRead s addr := rfl

theorem nextPc_nextPc (pc : Addr) : nextPc (nextPc pc) = pc + 2 := by simp only [nextPc]; ring

theorem nextPc_nextPc_nextPc (pc : Addr) : nextPc (nextPc (nextPc pc)) = pc + 3 := by simp only [nextPc]; ring

/-- Everything the fetch of an instruction can do: the opcode read faults; the byte is unimplemented; or its format says how
many operand bytes are read, in address order, up to the first fault. -/
theorem fetchInstr_cases (s : State) :
    (∃ f, busRead s s.pc = .fault f ∧ fetchInstr s = .raised f s) ∨
    ∃ op, busRead s s.pc = .ok op ∧
      ((opcodeEntry op = none ∧ fetchInstr s = .raised (.decodeFault op s.pc) { s with pc := s.pc + 1 }) ∨
        (∃ i, opcodeEntry op = some (.op i) ∧ fetchInstr s = .got i { s with pc := s.pc + 1 }) ∨
        (∃ mk, opcodeEntry op = some (.opN mk) ∧
          ((∃ f, busRead s (s.pc + 1) = .fault f ∧ fetchInstr s = .raised f { s with pc := s.pc + 1 }) ∨
            ∃ n, busRead s (s.pc + 1) = .ok n ∧ fetchInstr s = .got (mk n) { s with pc := s.pc + 2 })) ∨
        ∃ mk, opcodeEntry op = some (.opNN mk) ∧
          ((∃ f, busRead s (s.pc + 1) = .fault f ∧ fetchInstr s = .raised f { s with pc := s.pc + 1 }) ∨
            ∃ lo, busRead s (s.pc + 1) = .ok lo ∧
              ((∃ f, busRead s (s.pc + 2) = .fault f ∧ fetchInstr s = .raised f { s with pc := s.pc + 2 }) ∨
                ∃ hi, busRead s (s.pc + 2) = .ok hi ∧
                  fetchInstr s = .got (mk (wordOfBytes lo hi)) { s with pc := s.pc + 3 }))) := by
  rcases h0 : busRead s s.pc with op | f
  swap
  · exact .inl ⟨f, rfl, by simp only [fetchInstr, fetch8_of_fault h0]⟩
  refine .inr ⟨op, rfl, ?_⟩
  have e0 := fetch8_of_ok h0
  rcases he : opcodeEntry op with _ | e
  · exact .inl ⟨rfl, by simp only [fetchInstr, e0, he]; rfl⟩
  rcases e with i | mk | mk
  · exact .inr (.inl ⟨i, rfl, by simp only [fetchInstr, e0, he]; rfl⟩)
  · refine .inr (.inr (.inl ⟨mk, rfl, ?_⟩))
    rcases h1 : busRead s (s.pc + 1) with n | f
    · refine .inr ⟨n, rfl, ?_⟩
      have e1 := fetch8_of_ok (s := { s with pc := nextPc s.pc }) h1
      simp only [fetchInstr, e0, he, e1, nextPc_nextPc]
    · refine .inl ⟨f, rfl, ?_⟩
      have e1 := fetch8_of_fault (s := { s with pc := nextPc s.pc }) h1
      simp only [fetchInstr, e0, he, e1]; rfl
  · refine .inr (.inr (.inr ⟨mk, rfl, ?_⟩))
    rcases h1 : busRead s (s.pc + 1) with lo | f
    swap
    · refine .inl ⟨f, rfl, ?_⟩
      have e1 := fetch8_of_fault (s := { s with pc := nextPc s.pc }) h1
      simp only [fetchInstr, fetch16, e0, he, e1]; rfl
    refine .inr ⟨lo, rfl, ?_⟩
    have e1 := fetch8_of_ok (s := { s with pc := nextPc s.pc }) h1
    rw [← nextPc_nextPc, ← nextPc_nextPc_nextPc]
    rcases h2 : busRead s (nextPc (nextPc s.pc)) with hi | f
    · have e2 := fetch8_of_ok (s := { s with pc := nextPc (nextPc s.pc) }) h2
      exact .inr ⟨hi, rfl, by simp only [fetchInstr, fetch16, e0, he, e1, e2]⟩
    · have e2 := fetch8_of_fault (s := { s with pc := nextPc (nextPc s.pc) }) h2
      exact .inl ⟨f, rfl, by simp only [fetchInstr, fetch16, e0, he, e1, e2]⟩

end Sys2Proof.Machine
end

