-- ==== Sys2Proof/Laws/PerInstr.lean ====
section
/-! SUPPORT. Per-instruction lemmas: the encoding of every instruction has the length of its format and starts with its
opcode byte (spec/30_encoding.md R80, R89). -/

namespace Sys2Proof.Laws.EncodedLength

/-- The opcode byte of `i` selects a table entry whose operand count is the number of bytes the encoding has after it. -/
def Statement (i : Instr) : Prop :=
  (opcodeEntry i.opcode).map Entry.operandBytes = some i.operandBytes.length ∧ (encode i).length = i.length

theorem ldMemBCA : Statement .ldMemBCA := ⟨rfl, rfl⟩
theorem ldBN (n : Byte) : Statement (.ldBN n) := ⟨rfl, rfl⟩
theorem ldAMemBC : Statement .ldAMemBC := ⟨rfl, rfl⟩
theorem ldCN (n : Byte) : Statement (.ldCN n) := ⟨rfl, rfl⟩
theorem ldMemDEA : Statement .ldMemDEA := ⟨rfl, rfl⟩
theorem ldDN (n : Byte) : Statement (.ldDN n) := ⟨rfl, rfl⟩
theorem ldAMemDE : Statement .ldAMemDE := ⟨rfl, rfl⟩
theorem ldEN (n : Byte) : Statement (.ldEN n) := ⟨rfl, rfl⟩
theorem ldHN (n : Byte) : Statement (.ldHN n) := ⟨rfl, rfl⟩
theorem ldLN (n : Byte) : Statement (.ldLN n) := ⟨rfl, rfl⟩
theorem ldMemHLN (n : Byte) : Statement (.ldMemHLN n) := ⟨rfl, rfl⟩
theorem ldAN (n : Byte) : Statement (.ldAN n) := ⟨rfl, rfl⟩
theorem ldBB : Statement .ldBB := ⟨rfl, rfl⟩
theorem ldBC : Statement .ldBC := ⟨rfl, rfl⟩
theorem ldBD : Statement .ldBD := ⟨rfl, rfl⟩
theorem ldBE : Statement .ldBE := ⟨rfl, rfl⟩
theorem ldBH : Statement .ldBH := ⟨rfl, rfl⟩
theorem ldBL : Statement .ldBL := ⟨rfl, rfl⟩
theorem ldBMemHL : Statement .ldBMemHL := ⟨rfl, rfl⟩
theorem ldBA : Statement .ldBA := ⟨rfl, rfl⟩
theorem ldCB : Statement .ldCB := ⟨rfl, rfl⟩
theorem ldCC : Statement .ldCC := ⟨rfl, rfl⟩
theorem ldCD : Statement .ldCD := ⟨rfl, rfl⟩
theorem ldCE : Statement .ldCE := ⟨rfl, rfl⟩
theorem ldCH : Statement .ldCH := ⟨rfl, rfl⟩
theorem ldCL : Statement .ldCL := ⟨rfl, rfl⟩
theorem ldCMemHL : Statement .ldCMemHL := ⟨rfl, rfl⟩
theorem ldCA : Statement .ldCA := ⟨rfl, rfl⟩
theorem ldDB : Statement .ldDB := ⟨rfl, rfl⟩
theorem ldDC : Statement .ldDC := ⟨rfl, rfl⟩
theorem ldDD : Statement .ldDD := ⟨rfl, rfl⟩
theorem ldDE : Statement .ldDE := ⟨rfl, rfl⟩
theorem ldDH : Statement .ldDH := ⟨rfl, rfl⟩
theorem ldDL : Statement .ldDL := ⟨rfl, rfl⟩
theorem ldDMemHL : Statement .ldDMemHL := ⟨rfl, rfl⟩
theorem ldDA : Statement .ldDA := ⟨rfl, rfl⟩
theorem ldEB : Statement .ldEB := ⟨rfl, rfl⟩
theorem ldEC : Statement .ldEC := ⟨rfl, rfl⟩
theorem ldED : Statement .ldED := ⟨rfl, rfl⟩
theorem ldEE : Statement .ldEE := ⟨rfl, rfl⟩
theorem ldEH : Statement .ldEH := ⟨rfl, rfl⟩
theorem ldEL : Statement .ldEL := ⟨rfl, rfl⟩
theorem ldEMemHL : Statement .ldEMemHL := ⟨rfl, rfl⟩
theorem ldEA : Statement .ldEA := ⟨rfl, rfl⟩
theorem ldHB : Statement .ldHB := ⟨rfl, rfl⟩
theorem ldHC : Statement .ldHC := ⟨rfl, rfl⟩
theorem ldHD : Statement .ldHD := ⟨rfl, rfl⟩
theorem ldHE : Statement .ldHE := ⟨rfl, rfl⟩
theorem ldHH : Statement .ldHH := ⟨rfl, rfl⟩
theorem ldHL : Statement .ldHL := ⟨rfl, rfl⟩
theorem ldHMemHL : Statement .ldHMemHL := ⟨rfl, rfl⟩
theorem ldHA : Statement .ldHA := ⟨rfl, rfl⟩
theorem ldLB : Statement .ldLB := ⟨rfl, rfl⟩
theorem ldLC : Statement .ldLC := ⟨rfl, rfl⟩
theorem ldLD : Statement .ldLD := ⟨rfl, rfl⟩
theorem ldLE : Statement .ldLE := ⟨rfl, rfl⟩
theorem ldLH : Statement .ldLH := ⟨rfl, rfl⟩
theorem ldLL : Statement .ldLL := ⟨rfl, rfl⟩
theorem ldLMemHL : Statement .ldLMemHL := ⟨rfl, rfl⟩
theorem ldLA : Statement .ldLA := ⟨rfl, rfl⟩
theorem ldMemHLB : Statement .ldMemHLB := ⟨rfl, rfl⟩
theorem ldMemHLC : Statement .ldMemHLC := ⟨rfl, rfl⟩
theorem ldMemHLD : Statement .ldMemHLD := ⟨rfl, rfl⟩
theorem ldMemHLE : Statement .ldMemHLE := ⟨rfl, rfl⟩
theorem ldMemHLH : Statement .ldMemHLH := ⟨rfl, rfl⟩
theorem ldMemHLL : Statement .ldMemHLL := ⟨rfl, rfl⟩
theorem ldMemHLA : Statement .ldMemHLA := ⟨rfl, rfl⟩
theorem ldAB : Statement .ldAB := ⟨rfl, rfl⟩
theorem ldAC : Statement .ldAC := ⟨rfl, rfl⟩
theorem ldAD : Statement .ldAD := ⟨rfl, rfl⟩
theorem ldAE : Statement .ldAE := ⟨rfl, rfl⟩
theorem ldAH : Statement .ldAH := ⟨rfl, rfl⟩
theorem ldAL : Statement .ldAL := ⟨rfl, rfl⟩
theorem ldAMemHL : Statement .ldAMemHL := ⟨rfl, rfl⟩
theorem ldAA : Statement .ldAA := ⟨rfl, rfl⟩
theorem jp (nn : Addr) : Statement (.jp nn) := ⟨rfl, rfl⟩
theorem ldMemCA : Statement .ldMemCA := ⟨rfl, rfl⟩
theorem ldMemNNA (nn : Addr) : Statement (.ldMemNNA nn) := ⟨rfl, rfl⟩
theorem ldAMemC : Statement .ldAMemC := ⟨rfl, rfl⟩
theorem ldAMemNN (nn : Addr) : Statement (.ldAMemNN nn) := ⟨rfl, rfl⟩

end Sys2Proof.Laws.EncodedLength
end

