-- ==== Sys2Proof/Tests/Slice0.lean ====
section
/-! SUPPORT. The model's own tests. Expected results are the spec's: the encodings of spec/30_encoding.md R90, the vectors V1 to
V17 and S1 to S14 of spec/95_test_vectors.md. The `witness_` theorems show that the hypotheses of the obligation they name
can be met, at the ends of their ranges. -/

namespace Sys2Proof.Machine.Tests

/-! ## Helpers -/

/-- The state an outcome goes on in. -/
def nextOf : Host.Outcome State Fault Refusal → Option State
  | .next t => some t
  | .fault _ => none
  | .refused _ => none

/-- The fault an outcome ends in. -/
def faultOf : Host.Outcome State Fault Refusal → Option Fault
  | .next _ => none
  | .fault f => some f
  | .refused _ => none

/-- Bytes listed from an index on. -/
def listed : Nat → List Byte → Memory
  | _, [] => []
  | i, v :: bytes => (i, v) :: listed (i + 1) bytes

/-- The start state of the vectors of spec/95_test_vectors.md part 2, the bytes of the instruction in work RAM at `pc`. -/
def vecAt (pc : Addr) (bytes : List Byte) : State where
  a := 0x1A
  f := 0x00
  b := 0x2B
  c := 0x3C
  d := 0x4D
  e := 0x5E
  h := 0x6F
  l := 0x7F
  pc := pc
  mbc1 := Mbc1.reset
  wram := listed (pc.toNat - 0xC000) bytes
  cart := { len := 0, cells := [], oob := .error }
  cycles := 0

/-- The start state with the instruction at 0xC000. -/
def vec (bytes : List Byte) : State := vecAt 0xC000 bytes

/-- `HL` at an address. -/
def withHL (s : State) (h l : Byte) : State := { s with h := h, l := l }

/-- A byte of work RAM set from outside. -/
def withByte (s : State) (addr : Addr) (v : Byte) : State := { s with wram := wramWrite s.wram (wramIndex addr) v }

/-- A cartridge of a length with the image bytes listed. -/
def withImage (s : State) (oob : RomOobPolicy) (len : Nat) (cells : Memory) : State :=
  { s with cart := { len := len, cells := cells, oob := oob } }

/-! ## Well-formedness (spec/30_encoding.md R84, R86, R87, R92, R95) -/

theorem test_wf_rejects_byte_literal_256 : (Source.ld (.reg .b) (.imm 256)).wf = false := by decide
theorem test_wf_rejects_store_of_literal_256 : (Source.ld .memHL (.imm 256)).wf = false := by decide
theorem test_wf_rejects_address_65536 :
    (Source.ld (.reg .a) (.memNN 65536)).wf = false ∧ (Source.ld (.memNN 65536) (.reg .a)).wf = false := by decide
theorem test_wf_rejects_jump_to_65536 : (Source.jp 65536).wf = false := by decide
theorem test_wf_rejects_hl_to_hl : (Source.ld .memHL .memHL).wf = false := by decide
theorem test_wf_rejects_other_register_through_bc_de :
    (Source.ld .memBC (.reg .b)).wf = false ∧ (Source.ld (.reg .b) .memBC).wf = false ∧
      (Source.ld .memDE (.reg .c)).wf = false ∧ (Source.ld (.reg .c) .memDE).wf = false := by decide
theorem test_wf_rejects_other_register_absolute_or_high_page :
    (Source.ld (.memNN 0) (.reg .b)).wf = false ∧ (Source.ld (.reg .b) (.memNN 0)).wf = false ∧
      (Source.ld .memC (.reg .h)).wf = false ∧ (Source.ld (.reg .l) .memC).wf = false := by decide
theorem test_wf_rejects_literal_destination :
    (Source.ld (.imm 1) (.reg .a)).wf = false ∧ (Source.ld .memBC (.imm 1)).wf = false := by decide
theorem test_wf_accepts_largest_literals :
    (Source.ld (.reg .b) (.imm 255)).wf = true ∧ (Source.jp 65535).wf = true ∧
      (Source.ld (.memNN 65535) (.reg .a)).wf = true := by decide

/-! ## Decoding: a word of every constructor, bit by bit (spec/30_encoding.md R84, R90) -/

theorem test_decode_row_0x :
    decode [0b00000010] = .instr .ldMemBCA [] ∧
      decode [0b00000110, 0xB7, 0x55] = .instr (.ldBN 0xB7) [0x55] ∧
      decode [0b00001010] = .instr .ldAMemBC [] ∧
      decode [0b00001110, 0xB7, 0x55] = .instr (.ldCN 0xB7) [0x55] := by
  decide

theorem test_decode_row_1x :
    decode [0b00010010] = .instr .ldMemDEA [] ∧
      decode [0b00010110, 0xB7, 0x55] = .instr (.ldDN 0xB7) [0x55] ∧
      decode [0b00011010] = .instr .ldAMemDE [] ∧
      decode [0b00011110, 0xB7, 0x55] = .instr (.ldEN 0xB7) [0x55] := by
  decide

theorem test_decode_row_2x :
    decode [0b00100110, 0xB7, 0x55] = .instr (.ldHN 0xB7) [0x55] ∧
      decode [0b00101110, 0xB7, 0x55] = .instr (.ldLN 0xB7) [0x55] := by
  decide

theorem test_decode_row_3x :
    decode [0b00110110, 0xB7, 0x55] = .instr (.ldMemHLN 0xB7) [0x55] ∧
      decode [0b00111110, 0xB7, 0x55] = .instr (.ldAN 0xB7) [0x55] := by
  decide

theorem test_decode_row_4x_low :
    decode [0b01000000] = .instr .ldBB [] ∧
      decode [0b01000001] = .instr .ldBC [] ∧
      decode [0b01000010] = .instr .ldBD [] ∧
      decode [0b01000011] = .instr .ldBE [] ∧
      decode [0b01000100] = .instr .ldBH [] ∧
      decode [0b01000101] = .instr .ldBL [] ∧
      decode [0b01000110] = .instr .ldBMemHL [] ∧
      decode [0b01000111] = .instr .ldBA [] := by
  decide

theorem test_decode_row_4x_high :
    decode [0b01001000] = .instr .ldCB [] ∧
      decode [0b01001001] = .instr .ldCC [] ∧
      decode [0b01001010] = .instr .ldCD [] ∧
      decode [0b01001011] = .instr .ldCE [] ∧
      decode [0b01001100] = .instr .ldCH [] ∧
      decode [0b01001101] = .instr .ldCL [] ∧
      decode [0b01001110] = .instr .ldCMemHL [] ∧
      decode [0b01001111] = .instr .ldCA [] := by
  decide

theorem test_decode_row_5x_low :
    decode [0b01010000] = .instr .ldDB [] ∧
      decode [0b01010001] = .instr .ldDC [] ∧
      decode [0b01010010] = .instr .ldDD [] ∧
      decode [0b01010011] = .instr .ldDE [] ∧
      decode [0b01010100] = .instr .ldDH [] ∧
      decode [0b01010101] = .instr .ldDL [] ∧
      decode [0b01010110] = .instr .ldDMemHL [] ∧
      decode [0b01010111] = .instr .ldDA [] := by
  decide

theorem test_decode_row_5x_high :
    decode [0b01011000] = .instr .ldEB [] ∧
      decode [0b01011001] = .instr .ldEC [] ∧
      decode [0b01011010] = .instr .ldED [] ∧
      decode [0b01011011] = .instr .ldEE [] ∧
      decode [0b01011100] = .instr .ldEH [] ∧
      decode [0b01011101] = .instr .ldEL [] ∧
      decode [0b01011110] = .instr .ldEMemHL [] ∧
      decode [0b01011111] = .instr .ldEA [] := by
  decide

theorem test_decode_row_6x_low :
    decode [0b01100000] = .instr .ldHB [] ∧
      decode [0b01100001] = .instr .ldHC [] ∧
      decode [0b01100010] = .instr .ldHD [] ∧
      decode [0b01100011] = .instr .ldHE [] ∧
      decode [0b01100100] = .instr .ldHH [] ∧
      decode [0b01100101] = .instr .ldHL [] ∧
      decode [0b01100110] = .instr .ldHMemHL [] ∧
      decode [0b01100111] = .instr .ldHA [] := by
  decide

theorem test_decode_row_6x_high :
    decode [0b01101000] = .instr .ldLB [] ∧
      decode [0b01101001] = .instr .ldLC [] ∧
      decode [0b01101010] = .instr .ldLD [] ∧
      decode [0b01101011] = .instr .ldLE [] ∧
      decode [0b01101100] = .instr .ldLH [] ∧
      decode [0b01101101] = .instr .ldLL [] ∧
      decode [0b01101110] = .instr .ldLMemHL [] ∧
      decode [0b01101111] = .instr .ldLA [] := by
  decide

theorem test_decode_row_7x_low :
    decode [0b01110000] = .instr .ldMemHLB [] ∧
      decode [0b01110001] = .instr .ldMemHLC [] ∧
      decode [0b01110010] = .instr .ldMemHLD [] ∧
      decode [0b01110011] = .instr .ldMemHLE [] ∧
      decode [0b01110100] = .instr .ldMemHLH [] ∧
      decode [0b01110101] = .instr .ldMemHLL [] ∧
      decode [0b01110111] = .instr .ldMemHLA [] ∧
      decode [0b01111000] = .instr .ldAB [] := by
  decide

theorem test_decode_row_7x_high :
    decode [0b01111001] = .instr .ldAC [] ∧
      decode [0b01111010] = .instr .ldAD [] ∧
      decode [0b01111011] = .instr .ldAE [] ∧
      decode [0b01111100] = .instr .ldAH [] ∧
      decode [0b01111101] = .instr .ldAL [] ∧
      decode [0b01111110] = .instr .ldAMemHL [] ∧
      decode [0b01111111] = .instr .ldAA [] := by
  decide

theorem test_decode_row_Cx :
    decode [0b11000011, 0x34, 0xD2] = .instr (.jp 0xD234) [] := by
  decide

theorem test_decode_row_Ex :
    decode [0b11100010] = .instr .ldMemCA [] ∧
      decode [0b11101010, 0x34, 0xD2] = .instr (.ldMemNNA 0xD234) [] := by
  decide

theorem test_decode_row_Fx :
    decode [0b11110010] = .instr .ldAMemC [] ∧
      decode [0b11111010, 0x34, 0xD2] = .instr (.ldAMemNN 0xD234) [] := by
  decide

theorem test_decode_rejects_unimplemented :
    decode [0x00] = .rejected (.unimplemented 0x00) ∧ decode [0x76, 0xFF] = .rejected (.unimplemented 0x76) ∧
      decode [0xCB] = .rejected (.unimplemented 0xCB) ∧ decode [0xFF] = .rejected (.unimplemented 0xFF) := by
  decide

theorem test_decode_rejects_truncated :
    decode [] = .rejected .truncated ∧ decode [0x06] = .rejected .truncated ∧ decode [0xC3, 0x50] = .rejected .truncated := by
  decide

theorem test_table_word_jump : decodeTableWord 24 0x0150C3 = some (.jp 0x0150) := by decide
theorem test_table_word_short : decodeTableWord 8 0xFFC3 = some (.jp 0x0000) ∧ decodeTableWord 8 0x76 = none := by decide

theorem test_loaded_word_runs_first_after_reset :
    (nextOf (step (State.reset.withFetchWord 24 0x0150C3))).map State.pc = some 0x0150 := by
  rfl

theorem test_loaded_store_runs_first_after_reset :
    (nextOf (step (State.reset.withFetchWord 16 0x0536))).map (fun t => (t.pc, t.mbc1.ramGate)) = some (0x0102, false) := by
  rfl

/-! ## One step of each instruction (spec/95_test_vectors.md V1 to V9) -/

/-- V1.1 for all 49 opcodes: the register copied, pc one further, cost 1, nothing else. -/
theorem test_ld_rr :
    ∀ dst ∈ [Reg.b, .c, .d, .e, .h, .l, .a], ∀ src ∈ [Reg.b, .c, .d, .e, .h, .l, .a],
      let s := vec [opcodeOfFields 0b01 dst.code src.code]
      nextOf (step s) = some { s.setReg dst (s.reg src) with pc := 0xC001, cycles := 1 } := by
  decide

theorem test_V1_4_ld_h_l : nextOf (step (vec [0x65])) = some { vec [0x65] with h := 0x7F, pc := 0xC001, cycles := 1 } := by
  decide
theorem test_V1_8_last_mapped_byte :
    nextOf (step (vecAt 0xDFFF [0x4F])) = some { vecAt 0xDFFF [0x4F] with c := 0x1A, pc := 0xE000, cycles := 1 } := by
  decide

/-- V2.2, V2.3, V2.5 and their like: every destination, the byte after the opcode. -/
theorem test_ld_rn :
    ∀ dst ∈ [Reg.b, .c, .d, .e, .h, .l, .a], ∀ n ∈ [(0x00 : Byte), 0x76, 0xFF],
      let s := vec [opcodeOfFields 0b00 dst.code 0b110, n]
      nextOf (step s) = some { s.setReg dst n with pc := 0xC002, cycles := 2 } := by
  decide
theorem test_V2_6_operand_unmapped :
    faultOf (step (vecAt 0xDFFF [0x16])) = some (.busUnmapped 0xE000 .read) ∧
      stateAtFault (vecAt 0xDFFF [0x16]) = { vecAt 0xDFFF [0x16] with pc := 0xE000 } := by
  decide

/-- V3.1 to V3.3 for every destination: the byte at 0xC100, the address from the old h and l. -/
theorem test_ld_r_hl :
    ∀ dst ∈ [Reg.b, .c, .d, .e, .h, .l, .a],
      let s := withByte (withHL (vec [opcodeOfFields 0b01 dst.code 0b110]) 0xC1 0x00) 0xC100 0xA5
      nextOf (step s) = some { s.setReg dst 0xA5 with pc := 0xC001, cycles := 2 } := by
  decide
theorem test_V3_5_bank_zero_window :
    let s := withImage (withHL (vec [0x4E]) 0x01 0x23) .error 0x8000 [(0x0123, 0x77)]
    nextOf (step s) = some { s with c := 0x77, pc := 0xC001, cycles := 2 } := by
  decide
theorem test_V3_6_switchable_window :
    let s := withImage (withHL (vec [0x56]) 0x41 0x23) .error 0x8000 [(0x4123, 0x88)]
    nextOf (step s) = some { s with d := 0x88, pc := 0xC001, cycles := 2 } := by
  decide
theorem test_V3_7_unmapped_load :
    faultOf (step (withHL (vec [0x5E]) 0xA0 0x00)) = some (.busUnmapped 0xA000 .read) := by decide
theorem test_V3_8_beyond_image : faultOf (step (vec [0x7E])) = some (.romOutOfRange 0x6F7F 0x01 0x006F7F) := by decide
theorem test_V3_9_wrapped_image :
    let s := withImage (vec [0x7E]) .wrap 0x100 [(0x7F, 0x5A)]
    nextOf (step s) = some { s with a := 0x5A, pc := 0xC001, cycles := 2 } := by
  decide

/-- V4.1 to V4.3 for every source: stored at 0xC122, h and l among them. -/
theorem test_ld_hl_r :
    ∀ src ∈ [Reg.b, .c, .d, .e, .h, .l, .a],
      let s := withHL (vec [opcodeOfFields 0b01 0b110 src.code]) 0xC1 0x22
      nextOf (step s) = some { s with wram := [(0, s.wram.head!.2), (0x122, s.reg src)], pc := 0xC001, cycles := 2 } := by
  decide
theorem test_V4_4_bank1_coerced :
    let s := withHL { vec [0x70] with b := 0x00, mbc1 := { Mbc1.reset with bank1 := 5 } } 0x20 0x00
    nextOf (step s) = some { s with mbc1 := Mbc1.reset, pc := 0xC001, cycles := 2 } := by
  decide
theorem test_V4_5_bank2 :
    let s := withHL { vec [0x71] with c := 0xFA } 0x5F 0xFF
    nextOf (step s) = some { s with mbc1 := { Mbc1.reset with bank2 := 2 }, pc := 0xC001, cycles := 2 } := by
  decide
theorem test_V4_8_unmapped_store :
    faultOf (step (withHL (vec [0x73]) 0x80 0x00)) = some (.busUnmapped 0x8000 .write) := by decide
theorem test_V4_9_ld_hl_n :
    let s := withHL (vec [0x36, 0xA5]) 0xC1 0x00
    nextOf (step s) = some { s with wram := [(0, 0x36), (1, 0xA5), (0x100, 0xA5)], pc := 0xC002, cycles := 3 } := by
  decide +kernel
theorem test_V4_12_unmapped_store_after_operand :
    let s := withHL (vec [0x36, 0x55]) 0xFF 0x80
    faultOf (step s) = some (.busUnmapped 0xFF80 .write) ∧ stateAtFault s = { s with pc := 0xC002 } := by
  decide

theorem test_V5_1_store_through_bc :
    let s := { vec [0x02] with b := 0xC2, c := 0x00 }
    nextOf (step s) = some { s with wram := [(0, 0x02), (0x200, 0x1A)], pc := 0xC001, cycles := 2 } := by
  decide
theorem test_V5_2_load_through_bc :
    let s := withByte { vec [0x0A] with b := 0xC2, c := 0x00 } 0xC200 0x3C
    nextOf (step s) = some { s with a := 0x3C, pc := 0xC001, cycles := 2 } := by
  decide
theorem test_V5_3_store_through_de_at_last_byte :
    let s := { vec [0x12] with d := 0xDF, e := 0xFF }
    nextOf (step s) = some { s with wram := [(0, 0x12), (0x1FFF, 0x1A)], pc := 0xC001, cycles := 2 } := by
  decide
theorem test_V5_4_load_through_de :
    let s := withByte { vec [0x1A] with d := 0xDF, e := 0xFF } 0xDFFF 0x99
    nextOf (step s) = some { s with a := 0x99, pc := 0xC001, cycles := 2 } := by
  decide

theorem test_V7_1_jump :
    nextOf (step (vec [0xC3, 0x50, 0x01])) = some { vec [0xC3, 0x50, 0x01] with pc := 0x0150, cycles := 4 } := by
  decide
theorem test_V7_6_jump_operand_unmapped :
    faultOf (step (vecAt 0xDFFE [0xC3, 0x34])) = some (.busUnmapped 0xE000 .read) ∧
      stateAtFault (vecAt 0xDFFE [0xC3, 0x34]) = { vecAt 0xDFFE [0xC3, 0x34] with pc := 0xE000 } := by
  decide

theorem test_V8_1_absolute_store :
    let s := vec [0xEA, 0x23, 0xC1]
    nextOf (step s) = some { s with wram := s.wram ++ [(0x123, 0x1A)], pc := 0xC003, cycles := 4 } := by
  decide +kernel
theorem test_V8_4_absolute_store_to_bank1 :
    let s := { vec [0xEA, 0x00, 0x20] with a := 0xE0, mbc1 := { Mbc1.reset with bank1 := 7 } }
    nextOf (step s) = some { s with mbc1 := Mbc1.reset, pc := 0xC003, cycles := 4 } := by
  decide
theorem test_V8_7_absolute_load_of_own_operand :
    let s := vec [0xFA, 0x01, 0xC0]
    nextOf (step s) = some { s with a := 0x01, pc := 0xC003, cycles := 4 } := by
  decide
theorem test_V8_6_absolute_load_unmapped :
    faultOf (step (vec [0xFA, 0x00, 0xFF])) = some (.busUnmapped 0xFF00 .read) := by decide

theorem test_V9_1_high_page_store : faultOf (step (vec [0xE2])) = some (.busUnmapped 0xFF3C .write) := by decide
theorem test_V9_3_high_page_load :
    faultOf (step { vec [0xF2] with c := 0xFF }) = some (.busUnmapped 0xFFFF .read) := by decide

/-! ## Faults, the MBC1 and the ROM read path (V10 to V15) -/

theorem test_V10_decode_faults :
    faultOf (step (vec [0x00, 0xFF])) = some (.decodeFault 0x00 0xC000) ∧
      faultOf (step (vec [0x76])) = some (.decodeFault 0x76 0xC000) ∧
      (stateAtFault (vec [0x76])).pc = 0xC001 := by
  decide
theorem test_V15_1_decode_fault_before_operand :
    faultOf (step (vecAt 0xDFFF [0xD3])) = some (.decodeFault 0xD3 0xDFFF) := by decide
theorem test_V15_4_data_read_after_operands :
    faultOf (step (vecAt 0xDFFD [0xFA, 0x00, 0x80])) = some (.busUnmapped 0x8000 .read) := by decide
theorem test_V15_6_fetch_beyond_image :
    faultOf (step { vec [] with pc := 0x0100 }) = some (.romOutOfRange 0x0100 0x00 0x000100) := by decide

theorem test_V11_regions :
    mbc1Write Mbc1.reset 0x1FFF 0xFA = .ok { Mbc1.reset with ramGate := true } ∧
      mbc1Write { Mbc1.reset with ramGate := true } 0x1234 0xA0 = .ok Mbc1.reset ∧
      mbc1Write Mbc1.reset 0x2ABC 0x20 = .ok Mbc1.reset ∧
      mbc1Write Mbc1.reset 0x3FFF 0x1F = .ok { Mbc1.reset with bank1 := 31 } ∧
      mbc1Write Mbc1.reset 0x5FFF 0xFA = .ok { Mbc1.reset with bank2 := 2 } ∧
      mbc1Write Mbc1.reset 0x7FFF 0xFF = .ok { Mbc1.reset with mode := true } ∧
      mbc1Write { Mbc1.reset with mode := true } 0x6000 0x02 = .ok Mbc1.reset := by
  decide
theorem test_V12_banks :
    activeRomBank { Mbc1.reset with bank1 := 31, bank2 := 3 } 0x4000 = .ok 0x7F ∧
      activeRomBank { Mbc1.reset with bank2 := 1 } 0x4000 = .ok 0x21 ∧
      activeRomBank { Mbc1.reset with bank2 := 1, mode := true } 0x1234 = .ok 0x20 ∧
      activeRomBank { Mbc1.reset with bank2 := 3 } 0x0000 = .ok 0x00 ∧
      activeRomBank { Mbc1.reset with bank1 := 5, bank2 := 2, mode := true } 0x3FFF = .ok 0x40 ∧
      activeRomBank Mbc1.reset 0x8000 = .fault (.controllerBadQuery 0x8000) := by
  decide
theorem test_V13_4_last_byte_of_image :
    busRead (withImage { vec [] with mbc1 := { Mbc1.reset with bank1 := 3 } } .error 0x10000 [(0xFFFF, 0xFF)]) 0x7FFF =
      .ok 0xFF := by
  decide
theorem test_V13_5_bank_beyond_image :
    busRead (withImage { vec [] with mbc1 := { Mbc1.reset with bank1 := 4 } } .error 0x10000 []) 0x4000 =
      .fault (.romOutOfRange 0x4000 0x04 0x010000) := by
  decide
theorem test_V13_8_wrapped_bank :
    busRead (withImage { vec [] with mbc1 := { Mbc1.reset with bank2 := 1 } } .wrap 0x10000 [(0x4001, 0x41)]) 0x4001 =
      .ok 0x41 := by
  decide

/-! ## The run loop (V16) -/

/-- The first two loads of program P1 of spec/95_test_vectors.md part 3, in an image at the entry point. -/
def twoLoads : State := withImage { vec [] with pc := 0x0100 } .error 0x104 [(0x100, 0x3E), (0x101, 0x1A), (0x102, 0x06), (0x103, 0x2B)]

theorem test_V16_gas_zero_does_nothing : runWithGas 0 twoLoads = .stopped twoLoads := by decide
theorem test_V16_two_steps :
    runWithGas 2 { twoLoads with a := 0, b := 0 } = .stopped { twoLoads with pc := 0x0104, cycles := 2 } ∧
      spentCycles 2 twoLoads = 4 := by
  decide

/-! ## The header parser (S6, V17) -/

/-- The 80 bytes of S6 with chosen type, size codes and stored checksum. -/
def headerBytes (logo : List Byte) (ty rom ram sum : Byte) : List Byte :=
  [0, 0, 0, 0] ++ logo ++ [0x50, 0x4F, 0x4B, 0x45, 0x4D, 0x4F, 0x4E, 0x20, 0x52, 0x45, 0x44, 0, 0, 0, 0, 0] ++
    [0, 0, 0, ty, rom, ram, 0, 0, 0, sum, 0x91, 0xE6]

/-- What V17.1 and its variants return, as an option of the fields that vary. -/
def parsedOf : HeaderResult → Option Header
  | .parsed h => some h
  | .failed _ => none

def errorOf : HeaderResult → Option HeaderError
  | .parsed _ => none
  | .failed e => some e

theorem test_V17_1_base_header :
    parsedOf (parseHeader .recommended (headerBytes publishedLogo 0x13 0x05 0x03 0xB8)) =
      some
        { title := ['P', 'O', 'K', 'E', 'M', 'O', 'N', ' ', 'R', 'E', 'D']
          cartridgeType := .mbc3 true true false
          romBanks := 64
          ramBanks := 4
          version := 0x00
          validation := { logoValid := true, headerChecksum := .ok 0xB8, globalChecksum := 0x91E6 } } := by
  decide
theorem test_V17_2_3_advisory_fields :
    (parsedOf (parseHeader .recommended (headerBytes (List.replicate 48 0) 0x13 0x05 0x03 0x47))).map Header.validation =
      some { logoValid := false, headerChecksum := .mismatch 0xB8 0x47, globalChecksum := 0x91E6 } := by
  decide
theorem test_V17_errors :
    errorOf (parseHeader .recommended (headerBytes publishedLogo 0x04 0x05 0x03 0xB8)) = some (.unknownCartridgeType 0x04) ∧
      errorOf (parseHeader .recommended (headerBytes publishedLogo 0x13 0x09 0x01 0xB8)) = some (.badRomSize 0x09) ∧
      errorOf (parseHeader .recommended (headerBytes publishedLogo 0x13 0x05 0x01 0xB8)) = some (.badRamSize 0x01) := by
  decide
theorem test_header_table_has_28_codes :
    publishedCartTypes.length = 28 ∧ (publishedCartTypes.map Prod.fst).Nodup ∧ publishedLogo.length = 48 := by decide
theorem test_title_utf8_two_bytes : utf8Decode [0xC3, 0xA9, 0x41] = some [Char.ofNat 0xE9, 'A'] := by decide
theorem test_title_utf8_rejects :
    utf8Decode [0x80] = none ∧ utf8Decode [0xC0, 0x80] = none ∧ utf8Decode [0xED, 0xA0, 0x80] = none ∧
      utf8Decode [0xE2, 0x82] = none := by
  decide

/-! ## Witnesses: the hypotheses of each obligation can be met -/

theorem witness_ConstructedSystemHoldsItsArguments :
    (0 : Nat) < [(0x3E : Byte), 0x00].length ∧ (1 : Nat) < [(0x3E : Byte), 0x00].length ∧
      (State.construct 0x01 .wrap [0x3E, 0x00]).cart.byte 0 = 0x3E ∧
      (State.construct 0x01 .wrap [0x3E, 0x00]).cart.byte 1 = 0x00 := by
  decide
theorem witness_ResetBankingShowsImageOneToOne : InCart 0x0000 ∧ InCart 0x3FFF ∧ InCart 0x4000 ∧ InCart 0x7FFF := by decide
theorem witness_RegistersAreIndependentStorage : Reg.c ≠ Reg.b ∧ ((vec []).setReg .b 0xFF).reg .c = 0x3C := by decide
theorem witness_CompoundViewsAreLive : nextOf (exec (.ldBN 0xC0) (vec [])) = some { vec [] with b := 0xC0, cycles := 2 } := by
  decide
theorem witness_PcAdvanceWrapsModulo65536 : busRead (vec [0x41]) (vec [0x41]).pc = .ok 0x41 := by decide
theorem witness_FlagRegisterIsNeverReadOrWritten :
    (nextOf (step (vec [0x41]))).isSome ∧ (faultOf (step (vec [0x00]))).isSome ∧
      (runWithGas 0 (State.construct 0x01 .error []) = .stopped (State.construct 0x01 .error [])) := by
  exact ⟨by decide, by decide, rfl⟩

/-- LdBFromEachRegister to LdAFromEachRegister: each opcode byte can stand at pc. -/
theorem witness_LdFromEachRegister (dst src : Reg) :
    busRead (vec [(Instr.ldRR dst src).opcode]) 0xC000 = .ok (Instr.ldRR dst src).opcode := by
  rfl
/-- The opcode read of every instruction statement can fault: no device, and beyond the image. -/
theorem witness_OpcodeReadFaultEnds :
    busRead (vecAt 0xE000 []) 0xE000 = .fault (.busUnmapped 0xE000 .read) ∧
      busRead { vec [] with pc := 0x7FFF } 0x7FFF = .fault (.romOutOfRange 0x7FFF 0x01 0x7FFF) := by
  decide
/-- OperandReadFaultEnds: the first operand byte faults, and the second with the first read. -/
theorem witness_OperandReadFaultEnds :
    busRead (vecAt 0xDFFF [0x06]) 0xDFFF = .ok (Instr.ldBN 0).opcode ∧
      busRead (vecAt 0xDFFF [0x06]) 0xE000 = .fault (.busUnmapped 0xE000 .read) ∧
      busRead (vecAt 0xDFFE [0xFA, 0x00]) 0xDFFE = .ok (Instr.ldAMemNN 0).opcode ∧
      busRead (vecAt 0xDFFE [0xFA, 0x00]) 0xDFFF = .ok 0x00 ∧
      busRead (vecAt 0xDFFE [0xFA, 0x00]) 0xE000 = .fault (.busUnmapped 0xE000 .read) := by
  decide
theorem witness_LdRegisterImmediate (dst : Reg) :
    busRead (vec [(Instr.ldRN dst 0xFF).opcode, 0xFF]) 0xC000 = .ok (Instr.ldRN dst 0xFF).opcode ∧
      busRead (vec [(Instr.ldRN dst 0xFF).opcode, 0xFF]) 0xC001 = .ok 0xFF := by
  exact ⟨rfl, rfl⟩
/-- LdRegisterFromHL, AccumulatorThroughPairs, AccumulatorAbsolute: each clause of `LoadsByte`, at the ends of the ranges. -/
theorem witness_LoadsByte :
    busRead (withImage (vec []) .error 0x8000 [(0x7FFF, 0x11)]) 0x7FFF = .ok 0x11 ∧
      busRead (withByte (vec []) 0xC000 0x22) 0xC000 = .ok 0x22 ∧
      busRead (withByte (vec []) 0xDFFF 0x22) 0xDFFF = .ok 0x22 ∧
      busRead (vec []) 0x0000 = .fault (.romOutOfRange 0x0000 0x00 0x0000) ∧
      ¬Mapped 0x8000 ∧ ¬Mapped 0xBFFF ∧ ¬Mapped 0xE000 ∧ ¬Mapped 0xFFFF := by
  decide
/-- LdRegisterToHL, LdImmediateToHL, AccumulatorThroughPairs, AccumulatorAbsolute: each clause of `StoresByte`. -/
theorem witness_StoresByte :
    (withHL (vec []) 0xC0 0x00).hl = 0xC000 ∧ InWram 0xC000 ∧ InWram 0xDFFF ∧ InCart 0x0000 ∧ InCart 0x7FFF ∧
      ¬Mapped 0x8000 ∧ ¬Mapped 0xBFFF ∧ ¬Mapped 0xE000 ∧ ¬Mapped 0xFFFF := by
  decide
theorem witness_LdRegisterFromHL (dst : Reg) :
    busRead (vec [(Instr.ldRMemHL dst).opcode]) 0xC000 = .ok (Instr.ldRMemHL dst).opcode := by
  rfl
theorem witness_LdRegisterToHL (src : Reg) :
    busRead (vec [(Instr.ldMemHLR src).opcode]) 0xC000 = .ok (Instr.ldMemHLR src).opcode := by
  rfl
theorem witness_LdImmediateToHL :
    busRead (vec [0x36, 0xA5]) 0xC000 = .ok (Instr.ldMemHLN 0xA5).opcode ∧ busRead (vec [0x36, 0xA5]) 0xC001 = .ok 0xA5 := by
  decide
theorem witness_AccumulatorThroughPairs :
    busRead (vec [0x0A]) 0xC000 = .ok Instr.ldAMemBC.opcode ∧ busRead (vec [0x1A]) 0xC000 = .ok Instr.ldAMemDE.opcode ∧
      busRead (vec [0x02]) 0xC000 = .ok Instr.ldMemBCA.opcode ∧ busRead (vec [0x12]) 0xC000 = .ok Instr.ldMemDEA.opcode := by
  decide
theorem witness_JumpAbsolute :
    busRead (vec [0xC3, 0xFF, 0xFF]) 0xC000 = .ok (Instr.jp 0xFFFF).opcode ∧
      busRead (vec [0xC3, 0xFF, 0xFF]) 0xC001 = .ok (lowByte 0xFFFF) ∧
      busRead (vec [0xC3, 0xFF, 0xFF]) 0xC002 = .ok (highByte 0xFFFF) ∧ ¬Mapped 0xFFFF := by
  decide
theorem witness_AccumulatorAbsolute :
    busRead (vec [0xEA, 0x23, 0xC1]) 0xC000 = .ok (Instr.ldMemNNA 0xC123).opcode ∧
      busRead (vec [0xFA, 0x23, 0xC1]) 0xC000 = .ok (Instr.ldAMemNN 0xC123).opcode ∧
      busRead (vec [0xFA, 0x23, 0xC1]) 0xC001 = .ok (lowByte 0xC123) ∧
      busRead (vec [0xFA, 0x23, 0xC1]) 0xC002 = .ok (highByte 0xC123) := by
  decide
theorem witness_HighPageFormsAlwaysFault :
    busRead (vec [0xE2]) 0xC000 = .ok Instr.ldMemCA.opcode ∧ busRead (vec [0xF2]) 0xC000 = .ok Instr.ldAMemC.opcode ∧
      { vec [] with c := 0x00 }.highPageC = 0xFF00 ∧ { vec [] with c := 0xFF }.highPageC = 0xFFFF := by
  decide
/-- BusReadRoutesByAddress, BusWriteRoutesByAddress, WorkRamReadsBackWhatWasStored: the ends of each range. -/
theorem witness_BusRanges :
    (0x7FFF : Addr).toNat ≤ 0x7FFF ∧ 0x7FFF < (0x8000 : Addr).toNat ∧ (0xBFFF : Addr).toNat < 0xC000 ∧
      0xC000 ≤ (0xC000 : Addr).toNat ∧ (0xDFFF : Addr).toNat ≤ 0xDFFF ∧ 0xDFFF < (0xE000 : Addr).toNat ∧
      0xE000 ≤ (0xE000 : Addr).toNat ∧ (0xFDFF : Addr).toNat ≤ 0xFDFF ∧
      busRead (vec []) 0xFDFF = .fault (.busUnmapped 0xFDFF .read) ∧
      busWrite (vec []) 0xE000 0x33 = .fault (.busUnmapped 0xE000 .write) ∧
      busWrite (vec []) 0x7FFF 0x33 = .ok { vec [] with mbc1 := { Mbc1.reset with mode := true } } ∧
      busWrite (vec []) 0xDFFF 0x33 = .ok { vec [] with wram := [(8191, 0x33)] } := by
  decide
/-- Mbc1WriteSetsOneFieldFromTheByte: both ends of each region, and the first address beyond them. -/
theorem witness_Mbc1Regions :
    mbc1Write Mbc1.reset 0x0000 0x0A = .ok { Mbc1.reset with ramGate := true } ∧
      mbc1Write Mbc1.reset 0x1FFF 0x05 = .ok Mbc1.reset ∧
      mbc1Write Mbc1.reset 0x2000 0x00 = .ok Mbc1.reset ∧
      mbc1Write Mbc1.reset 0x3FFF 0xFF = .ok { Mbc1.reset with bank1 := 31 } ∧
      mbc1Write Mbc1.reset 0x4000 0x03 = .ok { Mbc1.reset with bank2 := 3 } ∧
      mbc1Write Mbc1.reset 0x5FFF 0x04 = .ok Mbc1.reset ∧
      mbc1Write Mbc1.reset 0x6000 0x01 = .ok { Mbc1.reset with mode := true } ∧
      mbc1Write Mbc1.reset 0x7FFF 0xFE = .ok Mbc1.reset ∧
      mbc1Write Mbc1.reset 0x8000 0x00 = .fault (.controllerNotOwned 0x8000) := by
  decide
theorem witness_Mbc1StateIsTheLastWritePerRegion :
    (∀ w ∈ [((0x2000 : Addr), (0x05 : Byte)), (0x7FFF, 0x01), (0x2000, 0x00)], InCart w.1) ∧
      mbc1WriteAll { Mbc1.reset with bank1 := 9 } [(0x2000, 0x05), (0x7FFF, 0x01), (0x2000, 0x00)] =
        .ok { Mbc1.reset with mode := true } := by
  exact ⟨by simp [InCart], by decide⟩
/-- ActiveRomBankByWindow, RomReadPath: the ends of the two windows, and the first address beyond. -/
theorem witness_RomWindows :
    activeRomBank { Mbc1.reset with bank2 := 2, mode := true } 0x0000 = .ok 0x40 ∧
      activeRomBank { Mbc1.reset with bank2 := 2 } 0x3FFF = .ok 0x00 ∧
      activeRomBank { Mbc1.reset with bank2 := 2 } 0x4000 = .ok 0x41 ∧
      activeRomBank { Mbc1.reset with bank2 := 2 } 0x7FFF = .ok 0x41 ∧
      activeRomBank Mbc1.reset 0xFFFF = .fault (.controllerBadQuery 0xFFFF) ∧
      (0x7F : BitVec 7).toNat * 0x4000 + (0x7FFF : Addr).toNat % 0x4000 < 0x200000 := by
  decide
theorem witness_BanksUnreachableThroughSwitchableWindow :
    Mbc1.reset.bank1 ≠ 0 ∧ activeRomBank Mbc1.reset 0x7FFF = .ok 0x01 ∧ (0x20 : Byte).toNat % 32 = 0 ∧
      mbc1Write { Mbc1.reset with bank1 := 9, bank2 := 1 } 0x3FFF 0x20 = .ok { Mbc1.reset with bank2 := 1 } ∧
      activeRomBank { Mbc1.reset with bank2 := 1, mode := true } 0x3FFF = .ok 0x20 := by
  decide
theorem witness_RomReadPath :
    InCart 0x7FFF ∧ (0x01 : BitVec 7).toNat * 0x4000 + (0x7FFF : Addr).toNat % 0x4000 <
      (withImage (vec []) .error 0x8000 []).cart.len := by
  decide
/-- RomBeyondImageFollowsThePolicy: the first index beyond the image under each policy, and the empty image. -/
theorem witness_RomBeyondImageFollowsThePolicy :
    activeRomBank Mbc1.reset 0x0100 = .ok 0x00 ∧ 0x100 ≤ (physIndex 0x00 0x0100).toNat ∧
      busRead (withImage (vec []) .error 0x100 []) 0x0100 = .fault (.romOutOfRange 0x0100 0x00 0x000100) ∧
      busRead (withImage (vec []) .wrap 0x100 [(0, 0x77)]) 0x0100 = .ok 0x77 ∧
      busRead (withImage (vec []) .wrap 0 []) 0x0000 = .fault (.romOutOfRange 0x0000 0x00 0x000000) ∧
      (withImage (vec []) .other 0x100 []).cart.oob = .other := by
  decide
theorem witness_RomIsNeverWritten :
    busWrite (vec []) 0x0000 0x0A = .ok { vec [] with mbc1 := { Mbc1.reset with ramGate := true } } ∧
      (nextOf (step (withHL (vec [0x77]) 0x00 0x00))).isSome ∧ runWithGas 0 (vec []) = .stopped (vec []) := by
  decide
theorem witness_EncodeInvertsDecode : decode [0xC3, 0x50, 0x01, 0x40] = .instr (.jp 0x0150) [0x40] := by decide
theorem witness_BitFieldsAgreeWithTheOpcodeMap : (Source.ld .memHL (.imm 255)).wf = true := by decide
theorem witness_EightyOpcodesAreImplemented :
    decode [0x41, 0xAA] = .instr .ldBC [0xAA] ∧ decode [0x41] = .instr .ldBC [] := by decide
/-- ImmediateWordIsLittleEndian: an opcode with a 16-bit immediate, and two bytes the fetch can read. -/
theorem witness_ImmediateWordIsLittleEndian :
    opcodeEntry 0xC3 = some (.opNN .jp) ∧ busRead (vec [0x50, 0x01]) 0xC000 = .ok 0x50 ∧
      busRead (vec [0x50, 0x01]) 0xC001 = .ok 0x01 := by
  exact ⟨rfl, by decide, by decide⟩
theorem witness_StepRunsTheDecodedInstruction :
    decode [0xFA, 0x01, 0xC0] = .instr (.ldAMemNN 0xC001) [] ∧
      ∀ k : Fin 3, busRead (vec [0xFA, 0x01, 0xC0]) (0xC000 + BitVec.ofNat 16 k) = .ok [0xFA, 0x01, 0xC0][k] := by
  decide
theorem witness_DecodeFaultExactlyOnUnimplementedOpcodes :
    busRead (vec [0x76]) 0xC000 = .ok 0x76 ∧ (opcodeEntry 0x76).isNone ∧
      faultOf (step (vec [0x76])) = some (.decodeFault 0x76 0xC000) := by
  decide
/-- EveryStepCompletesOrHasANamedFault: a completed step and each kind of fault a step can raise. -/
theorem witness_EveryStepCompletesOrHasANamedFault :
    (nextOf (step (vec [0x40]))).isSome ∧ faultOf (step (vec [0xFF])) = some (.decodeFault 0xFF 0xC000) ∧
      faultOf (step (vecAt 0xE000 [])) = some (.busUnmapped 0xE000 .read) ∧
      faultOf (step (withImage { vec [] with pc := 0 } .wrap 0 [])) = some (.romOutOfRange 0x0000 0x00 0x000000) := by
  decide
theorem witness_StepIsItsBusTransactions :
    transactions (vec [0xEA, 0x23, 0xC1]) =
        [.read 0xC000, .read 0xC001, .read 0xC002] ++ [.write 0xC123 0x1A] ∧
      (nextOf (step (vec [0xEA, 0x23, 0xC1]))).isSome ∧ transactions (vec [0x76]) = [.read 0xC000] ∧
      (faultOf (step (vec [0xE2]))).isSome := by
  decide
theorem witness_FaultLeavesEverythingButPc :
    (stateAtFault (vec [0xEA, 0x80, 0xFF])).pc = 0xC003 ∧ (faultOf (step (vec [0xEA, 0x80, 0xFF]))).isSome ∧
      (stateAtFault (vecAt 0xE000 [])).pc = 0xE000 ∧ (faultOf (step (vecAt 0xE000 []))).isSome := by
  decide
theorem witness_StepKeepsTheStateLegal : (vec [0x41]).Legal ∧ (nextOf (step (vec [0x41]))).isSome := by decide
theorem witness_PcChangesByLengthOrJump :
    (nextOf (step (vec [0x36, 0x01]))).isSome ∧ (nextOf (step (vec [0x06, 0x01]))).isSome ∧
      (nextOf (step (vec [0xC3, 0x00, 0xC0]))).isSome := by
  decide
theorem witness_CostsOfEachClass :
    (nextOf (exec (.ldRR .b .c) (vec []))).map State.cycles = some 1 ∧
      (nextOf (exec (.ldRN .b 0) (vec []))).map State.cycles = some 2 ∧
      (nextOf (exec (.ldRMemHL .b) (withHL (vec [0x46]) 0xC0 0x00))).map State.cycles = some 2 ∧
      (nextOf (exec (.ldMemHLR .b) (vec []))).map State.cycles = some 2 ∧
      (nextOf (exec (.jp 0xFFFF) (vec []))).map State.cycles = some 4 ∧
      (nextOf (exec (.ldAMemNN 0xC000) (vec [0x46]))).map State.cycles = some 4 ∧
      (nextOf (exec .ldMemBCA (vec []))).map State.cycles = some 2 ∧
      (nextOf (exec (.ldMemHLN 0) (vec []))).map State.cycles = some 3 ∧
      (nextOf (exec (.ldMemNNA 0xDFFF) (vec []))).map State.cycles = some 4 := by
  decide
theorem witness_CostIsTheTransactionCountButForJump :
    (nextOf (step (vec [0xC3, 0x00, 0xC0]))).isSome ∧ (nextOf (step (vec [0x41]))).isSome := by decide
theorem witness_LastCostIsNeverRead :
    SameBlock (vec [0x41]) { vec [0x41] with cycles := 4 } ∧ vec [0x41] ≠ { vec [0x41] with cycles := 4 } := by
  exact ⟨rfl, by decide⟩
theorem witness_RamGateIsUnobservable :
    (faultOf (step (vec [0xE2]))).isSome ∧ (nextOf (step (withHL (vec [0x77]) 0x1F 0xFF))).isSome := by decide
theorem witness_LoadedWordRunsNext :
    (∀ k < (Instr.jp 0x0150).length, Mapped (0xDFFD + BitVec.ofNat 16 k)) ∧
      (∀ k < (Instr.ldBN 0xB7).length, Mapped (0x7FFE + BitVec.ofNat 16 k)) ∧
      (∀ k < Instr.ldBC.length, Mapped (0x7FFF + BitVec.ofNat 16 k)) ∧
      (∀ k < Instr.ldBC.length, Mapped (0xDFFF + BitVec.ofNat 16 k)) ∧
      decodeTableWord (8 * (Instr.jp 0x0150).length) 0x0150C3 = some (.jp 0x0150) ∧
      decodeTableWord (8 * (Instr.ldBN 0xB7).length) 0xB706 = some (.ldBN 0xB7) ∧
      decodeTableWord (8 * Instr.ldBC.length) 0x41 = some .ldBC := by
  decide
/-- A one-byte instruction loaded at the last address of a region runs there. -/
theorem test_loaded_at_the_last_mapped_address :
    (nextOf (step ((vecAt 0xDFFF []).withFetchWord 8 0x41))).map (fun t => (t.b, t.pc)) = some (0x3C, 0xE000) ∧
      (nextOf (step ({ vec [] with pc := 0x7FFF }.withFetchWord 8 0x41))).map (fun t => (t.b, t.pc)) =
        some (0x3C, 0x8000) := by
  decide +kernel
/-- GasBoundsTheRun, GasAddsUp, UnlimitedRunEndsOnlyByFault: a run that stops, and one that faults. -/
theorem witness_Runs :
    runWithGas 1 twoLoads = .stopped { twoLoads with pc := 0x0102, cycles := 2 } ∧
      runWithGas 1 (vec [0x00]) = .faulted (.decodeFault 0x00 0xC000) ∧
      runForever 1 twoLoads = .running .unlimited { twoLoads with pc := 0x0102, cycles := 2 } := by
  decide
theorem witness_JumpToItselfIsTheEndOfRunIdiom :
    busRead (vec [0xC3, 0x00, 0xC0]) 0xC000 = .ok (Instr.jp 0xC000).opcode ∧
      busRead (vec [0xC3, 0x00, 0xC0]) 0xC001 = .ok (lowByte 0xC000) ∧
      busRead (vec [0xC3, 0x00, 0xC0]) 0xC002 = .ok (highByte 0xC000) := by
  decide
/-- HeaderChecksumClosedForm: an input of exactly the header's length. -/
theorem witness_HeaderChecksumClosedForm :
    (headerBytes publishedLogo 0x13 0x05 0x03 0xB8).length = headerLength ∧
      headerChecksum (headerBytes publishedLogo 0x13 0x05 0x03 0xB8) = 0xB8 := by
  decide
/-- HeaderAdvisoryFieldsNeverBlock: every premise at the base header of V17. -/
theorem witness_HeaderAdvisoryFieldsNeverBlock :
    let input := headerBytes publishedLogo 0x13 0x05 0x03 0xB8
    80 ≤ input.length ∧ (HeaderParams.recommended.decodeTitle ((input.drop 52).take 16)).isSome ∧
      HeaderParams.recommended.cartType (input.getD 71 0) = some (.mbc3 true true false) ∧
      parseRomBanks (input.getD 72 0) = some 64 ∧ parseRamBanks (input.getD 73 0) = some 4 ∧
      headerChecksum input = input.getD 77 0 ∧
      headerChecksum (headerBytes publishedLogo 0x13 0x05 0x03 0x47) ≠
        (headerBytes publishedLogo 0x13 0x05 0x03 0x47).getD 77 0 := by
  decide
theorem witness_HeaderSizeCodes :
    parseRomBanks 0 = some 2 ∧ parseRomBanks 8 = some 512 ∧ parseRomBanks 9 = none ∧ parseRamBanks 1 = none ∧
      parseRamBanks 5 = some 8 ∧ parseRamBanks 6 = none ∧
      parseRomBanks ((headerBytes publishedLogo 0x13 0x09 0x03 0xB8).getD 72 0) = none ∧
      parseRamBanks ((headerBytes publishedLogo 0x13 0x05 0x01 0xB8).getD 73 0) = none := by
  decide
/-- HeaderErrorsInOrder: an input one byte short, an undecodable title, and the three codes (with `test_V17_errors`). -/
theorem witness_HeaderErrorsInOrder :
    errorOf (parseHeader .recommended (List.replicate 79 0)) = some (.tooShort 80 79) ∧
      HeaderParams.recommended.decodeTitle (((List.replicate 80 (0xFF : Byte)).drop 52).take 16) = none ∧
      HeaderParams.recommended.cartType 0x04 = none ∧ parseRomBanks 0x09 = none ∧ parseRamBanks 0x01 = none := by
  decide

end Sys2Proof.Machine.Tests
end

section
/-! PROOF. The rules the statements about the state rest on: the opcode table agrees with the encoder, a completed fetch has
read exactly the instruction's encoding, and what a completed instruction, step or run leaves unchanged. -/

namespace Sys2Proof

/-! ## The opcode table and the encoder -/

/-- What the table says an opcode byte stands for encodes to that byte and the operands of its format (R80 to R83). -/
def Entry.FitsOpcode (op : Byte) : Entry → Prop
  | .op i => encode i = [op]
  | .opN mk => ∀ n, encode (mk n) = [op, n]
  | .opNN mk => ∀ nn, encode (mk nn) = [op, lowByte nn, highByte nn]

theorem mem_of_lookupOpcode {op : Byte} {e : Entry} {rows : List (Byte × Entry)} (h : lookupOpcode op rows = some e) :
    (op, e) ∈ rows := by
  induction rows with
  | nil => cases h
  | cons row rows ih =>
    obtain ⟨k, e'⟩ := row
    simp only [lookupOpcode] at h
    split at h
    · obtain rfl : k = op := ‹_›
      obtain rfl : e' = e := Option.some.inj h
      exact List.mem_cons_self
    · exact List.mem_cons_of_mem _ (ih h)

/-- Row by row, each checked by evaluating the encoder: an entry without operand bytes, or one with them. -/
theorem opcodeTable_fitsOpcode : ∀ row ∈ opcodeTable, Entry.FitsOpcode row.1 row.2 := by
  refine List.forall_iff_forall_mem.mp ?_
  repeat' refine And.intro ?_ ?_
  all_goals first
    | exact rfl
    | exact fun _ => rfl

theorem opcodeEntry_fitsOpcode {op : Byte} {e : Entry} (h : opcodeEntry op = some e) : e.FitsOpcode op :=
  opcodeTable_fitsOpcode (op, e) (mem_of_lookupOpcode h)

/-- An encoding is as long as the instruction's length says (R80). -/
@[simp] theorem length_encode (i : Instr) : (encode i).length = i.length := by
  simp only [encode, Instr.length, List.length_cons]; omega

/-! ## The bytes of a word (R87) -/

@[simp] theorem lowByte_wordOfBytes (lo hi : Byte) : lowByte (wordOfBytes lo hi) = lo := by
  ext k hk
  simp [lowByte, wordOfBytes]

@[simp] theorem highByte_wordOfBytes (lo hi : Byte) : highByte (wordOfBytes lo hi) = hi := by
  ext k hk
  have hhi : 8 + k < 16 := by omega
  have hlo : k < 16 := by omega
  simp [highByte, wordOfBytes, hhi, hlo, hk]

end Sys2Proof

namespace Sys2Proof.Machine

/-! ## The fetch of an instruction -/

/-- `pc` after a fetched byte as a number (R15). -/
theorem nextPc_toNat (pc : Addr) : (nextPc pc).toNat = (pc.toNat + 1) % 65536 := BitVec.toNat_add pc 1

/-- `bytes` stand at `addr` and the addresses after it, modulo 65536, where the Bus reads them. -/
def BytesAt (s : State) : Addr → List Byte → Prop
  | _, [] => True
  | addr, v :: bytes => busRead s addr = .ok v ∧ BytesAt s (nextPc addr) bytes

/-- A completed fetch has read exactly the encoding of the instruction it answers, and leaves `pc` past it (R97). -/
theorem fetchInstr_got_encode {s u : State} {i : Instr} (h : fetchInstr s = .got i u) :
    BytesAt s s.pc (encode i) ∧ u = { s with pc := s.pc + BitVec.ofNat 16 i.length } := by
  obtain ⟨f, -, e⟩ | ⟨op, h0, ⟨-, e⟩ | ⟨i', he, e⟩ | ⟨mk, he, ⟨f, -, e⟩ | ⟨n, h1, e⟩⟩ |
      ⟨mk, he, ⟨f, -, e⟩ | ⟨lo, h1, ⟨f, -, e⟩ | ⟨hi, h2, e⟩⟩⟩⟩ := fetchInstr_cases s <;>
    rw [e] at h <;> cases h
  · have henc : encode i = [op] := opcodeEntry_fitsOpcode he
    rw [← length_encode, henc]
    exact ⟨⟨h0, trivial⟩, rfl⟩
  · have henc : encode (mk n) = [op, n] := opcodeEntry_fitsOpcode he n
    rw [← length_encode, henc]
    exact ⟨⟨h0, h1, trivial⟩, rfl⟩
  · have henc : encode (mk (wordOfBytes lo hi)) = [op, lo, hi] := by
      rw [opcodeEntry_fitsOpcode he, lowByte_wordOfBytes, highByte_wordOfBytes]
    rw [← length_encode, henc]
    exact ⟨⟨h0, h1, by rwa [nextPc_nextPc], trivial⟩, rfl⟩

/-! ## What a completed instruction changes -/

/-- A register write leaves one half of every pair as it was. -/
theorem setReg_keeps_a_half (s : State) (r : Reg) (v : Byte) :
    ((s.setReg r v).b = s.b ∨ (s.setReg r v).c = s.c) ∧ ((s.setReg r v).d = s.d ∨ (s.setReg r v).e = s.e) ∧
      ((s.setReg r v).h = s.h ∨ (s.setReg r v).l = s.l) := by
  cases r <;> simp [State.setReg]

/-- No instruction writes both halves of a pair (R12). -/
theorem exec_keeps_a_half {i : Instr} {s t : State} (h : exec i s = .next t) :
    (t.b = s.b ∨ t.c = s.c) ∧ (t.d = s.d ∨ t.e = s.e) ∧ (t.h = s.h ∨ t.l = s.l) := by
  obtain ⟨r, v, _, rfl⟩ | ⟨_, -, rfl⟩ | ⟨_, _, _, _, -, -, rfl⟩ | ⟨_, _, _, -, rfl⟩ := exec_next h
  · exact setReg_keeps_a_half s r v
  · exact ⟨.inl rfl, .inl rfl, .inl rfl⟩
  · exact ⟨.inl rfl, .inl rfl, .inl rfl⟩
  · exact ⟨.inl rfl, .inl rfl, .inl rfl⟩

/-- No instruction writes the cartridge (R24). -/
theorem exec_keeps_cart {i : Instr} {s t : State} (h : exec i s = .next t) : t.cart = s.cart := by
  obtain ⟨r, v, _, rfl⟩ | ⟨_, -, rfl⟩ | ⟨_, _, _, _, -, -, rfl⟩ | ⟨_, _, _, -, rfl⟩ := exec_next h
  · exact s.setReg_cart r v
  · rfl
  · rfl
  · rfl

/-- Only the jump assigns `pc` (R16). -/
theorem exec_keeps_pc {i : Instr} {s t : State} (h : exec i s = .next t) (hi : ∀ nn, i ≠ .jp nn) : t.pc = s.pc := by
  obtain ⟨r, v, _, rfl⟩ | ⟨nn, rfl, -⟩ | ⟨_, _, _, _, -, -, rfl⟩ | ⟨_, _, _, -, rfl⟩ := exec_next h
  · exact s.setReg_pc r v
  · exact absurd rfl (hi nn)
  · rfl
  · rfl

/-- The jump completes with `pc` at its operand (R190). -/
theorem exec_jp_pc {nn : Addr} {s t : State} (h : exec (.jp nn) s = .next t) : t.pc = nn := by
  obtain rfl := jumpTo_next (show jumpTo nn s = .next t from h)
  rfl

/-- A Bus write that succeeds leaves the cartridge as it was, and one into the cartridge range the work RAM too (R24). -/
theorem busWrite_keeps_cart {s t : State} {addr : Addr} {v : Byte} (h : busWrite s addr v = .ok t) :
    t.cart = s.cart ∧ (InCart addr → t.wram = s.wram) := by
  obtain ⟨-, _, -, rfl⟩ | ⟨hw, rfl⟩ := busWrite_ok h
  · exact ⟨rfl, fun _ => rfl⟩
  · have hlo : 0xC000 ≤ addr.toNat := hw.1
    exact ⟨rfl, fun hc : addr.toNat ≤ 0x7FFF => by omega⟩

/-! ## Steps and runs -/

/-- A step that completes has fetched an instruction and run it past its bytes (R97). -/
theorem step_next {s t : State} (h : step s = .next t) :
    ∃ i, BytesAt s s.pc (encode i) ∧ exec i { s with pc := s.pc + BitVec.ofNat 16 i.length } = .next t := by
  unfold step at h
  split at h
  · rename_i i u hf
    obtain ⟨hbytes, rfl⟩ := fetchInstr_got_encode hf
    exact ⟨i, hbytes, h⟩
  · cases h

theorem step_keeps_cart {s t : State} (h : step s = .next t) : t.cart = s.cart := by
  obtain ⟨i, -, hexec⟩ := step_next h
  exact (exec_keeps_cart hexec).trans rfl

/-- What every completed step keeps holds where a run stops, whatever its gas (R234). -/
theorem runLoop_stopped_keeps {P : State → Prop} (hstep : ∀ s t, P s → step s = .next t → P t) {k : Nat} {gas : Gas}
    {s t : State} (hs : P s) (h : runLoop k gas s = .stopped t) : P t := by
  induction k generalizing gas s with
  | zero =>
    simp only [runLoop] at h
    split at h
    · cases h; exact hs
    · cases h
  | succ k ih =>
    simp only [runLoop] at h
    split at h
    · cases h; exact hs
    · split at h
      · exact ih (hstep _ _ hs ‹_›) h
      · cases h
      · cases h

end Sys2Proof.Machine
end

section
/-! PROOF. The statements about the state: compound views, the ROM array, `pc`. -/

namespace Sys2Proof.Machine

/-- Settles O5: the arithmetic of `compound`, and each completed instruction writes at most one register. -/
theorem compoundViewsAreLive : Obligations.CompoundViewsAreLive := by
  unfold Obligations.CompoundViewsAreLive
  refine ⟨fun s => ?_, fun s v => ?_, fun i s t h => exec_keeps_a_half h⟩
  · exact ⟨compound_toNat s.b s.c, compound_toNat s.d s.e, compound_toNat s.h s.l⟩
  · exact ⟨compound_toNat v s.c, compound_toNat s.b v, compound_toNat v s.e, compound_toNat s.d v,
      compound_toNat v s.l, compound_toNat s.h v⟩

/-- Settles O6: the increment is 16-bit addition, and a fetch moves `pc` by it after its read. -/
theorem pcAdvanceWrapsModulo65536 : Obligations.PcAdvanceWrapsModulo65536 := by
  unfold Obligations.PcAdvanceWrapsModulo65536
  exact ⟨nextPc_toNat, rfl, fun s v hread => fetch8_of_ok hread⟩

/-- Settles O32: a Bus write reaches the MBC1 registers or the work RAM, never the image; a run by induction on its passes. -/
theorem romIsNeverWritten : Obligations.RomIsNeverWritten := by
  unfold Obligations.RomIsNeverWritten
  refine ⟨fun s t addr v => busWrite_keeps_cart, fun s t => step_keeps_cart, fun n s t h => ?_⟩
  exact runLoop_stopped_keeps (P := fun u => u.cart = s.cart) (fun u w hu hw => (step_keeps_cart hw).trans hu) rfl h

/-- Settles O47: the fetch leaves `pc` past the encoding it read, and only the jump's effect assigns it afterwards. -/
theorem pcChangesByLengthOrJump : Obligations.PcChangesByLengthOrJump := by
  unfold Obligations.PcChangesByLengthOrJump
  intro s t h
  obtain ⟨i, hbytes, hexec⟩ := step_next h
  refine ⟨i, hbytes.1, fun hi => exec_keeps_pc hexec hi, ?_⟩
  rintro nn rfl
  obtain ⟨-, hlo, hhi, -⟩ := hbytes
  exact ⟨hlo, nextPc_nextPc s.pc ▸ hhi, exec_jp_pc hexec⟩

end Sys2Proof.Machine
end

section
/-! PROOF. The rules the statements about memory rest on: what the MBC1 answers in each region, the bytes and banks as
numbers, the last write of a sequence, and where the Bus routes an address. -/

namespace Sys2Proof.Machine

/-! ## The MBC1 fields as numbers (R48 to R51) -/

theorem ramGateOf_eq_decide_mod (v : Byte) : ramGateOf v = decide (v.toNat % 16 = 10) := by
  have hmod : (v &&& 0xF).toNat = v.toNat % 16 := Nat.and_two_pow_sub_one_eq_mod v.toNat 4
  simp only [ramGateOf, decide_eq_decide, BitVec.toNat_eq, hmod]
  rfl

theorem bank1Of_toNat (v : Byte) : (bank1Of v).toNat = if v.toNat % 32 = 0 then 1 else v.toNat % 32 := by
  have hmod : (v &&& 0x1F).toNat = v.toNat % 32 := Nat.and_two_pow_sub_one_eq_mod v.toNat 5
  have hzero : v &&& 0x1F = 0 ↔ v.toNat % 32 = 0 := by rw [BitVec.toNat_eq, hmod]; rfl
  simp only [bank1Of, hzero]
  split
  · rfl
  · simp only [BitVec.toNat_setWidth, hmod]; omega

theorem bank2Of_toNat (v : Byte) : (bank2Of v).toNat = v.toNat % 4 := by
  have hmod : (v &&& 0x3).toNat = v.toNat % 4 := Nat.and_two_pow_sub_one_eq_mod v.toNat 2
  simp only [bank2Of, BitVec.toNat_setWidth, hmod]
  omega

theorem modeOf_eq_decide_odd (v : Byte) : modeOf v = decide (v.toNat % 2 = 1) := by
  have hmod : (v &&& 0x1).toNat = v.toNat % 2 := Nat.and_two_pow_sub_one_eq_mod v.toNat 1
  simp only [modeOf, decide_eq_decide, BitVec.toNat_eq, hmod]
  rfl

/-! ## A write handed to the MBC1, region by region (R47, R52) -/

section mbc1Write
variable (m : Mbc1) {addr : Addr} (v : Byte)

theorem mbc1Write_ramGate_region (h : addr.toNat ≤ 0x1FFF) :
    mbc1Write m addr v = .ok { m with ramGate := ramGateOf v } := if_pos h

theorem mbc1Write_bank1_region (hlo : 0x2000 ≤ addr.toNat) (hhi : addr.toNat ≤ 0x3FFF) :
    mbc1Write m addr v = .ok { m with bank1 := bank1Of v } := by
  have h0 : ¬addr.toNat ≤ 0x1FFF := by omega
  simp only [mbc1Write, if_neg h0, if_pos hhi]

theorem mbc1Write_bank2_region (hlo : 0x4000 ≤ addr.toNat) (hhi : addr.toNat ≤ 0x5FFF) :
    mbc1Write m addr v = .ok { m with bank2 := bank2Of v } := by
  have h0 : ¬addr.toNat ≤ 0x1FFF := by omega
  have h1 : ¬addr.toNat ≤ 0x3FFF := by omega
  simp only [mbc1Write, if_neg h0, if_neg h1, if_pos hhi]

theorem mbc1Write_mode_region (hlo : 0x6000 ≤ addr.toNat) (hhi : addr.toNat ≤ 0x7FFF) :
    mbc1Write m addr v = .ok { m with mode := modeOf v } := by
  have h0 : ¬addr.toNat ≤ 0x1FFF := by omega
  have h1 : ¬addr.toNat ≤ 0x3FFF := by omega
  have h2 : ¬addr.toNat ≤ 0x5FFF := by omega
  simp only [mbc1Write, if_neg h0, if_neg h1, if_neg h2, if_pos hhi]

theorem mbc1Write_of_not_inCart (h : ¬InCart addr) : mbc1Write m addr v = .fault (.controllerNotOwned addr) := by
  have h0 : ¬addr.toNat ≤ 0x1FFF := by omega
  have h1 : ¬addr.toNat ≤ 0x3FFF := by omega
  have h2 : ¬addr.toNat ≤ 0x5FFF := by omega
  simp only [mbc1Write, if_neg h0, if_neg h1, if_neg h2, if_neg h]

/-- The four regions in one equation: the field whose number is the address's region takes the value of the byte. -/
theorem mbc1Write_eq_by_region (h : InCart addr) :
    mbc1Write m addr v = .ok
      { ramGate := if addr.toNat / 0x2000 = 0 then ramGateOf v else m.ramGate
        bank1 := if addr.toNat / 0x2000 = 1 then bank1Of v else m.bank1
        bank2 := if addr.toNat / 0x2000 = 2 then bank2Of v else m.bank2
        mode := if addr.toNat / 0x2000 = 3 then modeOf v else m.mode } := by
  obtain hr | hr | hr | hr : addr.toNat / 0x2000 = 0 ∨ addr.toNat / 0x2000 = 1 ∨ addr.toNat / 0x2000 = 2 ∨
      addr.toNat / 0x2000 = 3 := by omega
  · rw [mbc1Write_ramGate_region m v (by omega), hr]; rfl
  · rw [mbc1Write_bank1_region m v (by omega) (by omega), hr]; rfl
  · rw [mbc1Write_bank2_region m v (by omega) (by omega), hr]; rfl
  · rw [mbc1Write_mode_region m v (by omega) (by omega), hr]; rfl

end mbc1Write

/-! ## Sequences of writes -/

/-- The first write of a sequence is the last to its region only when no later one goes there. -/
theorem lastWriteTo_cons (region : Nat) (addr : Addr) (v : Byte) (ws : List (Addr × Byte)) :
    lastWriteTo region ((addr, v) :: ws) =
      (lastWriteTo region ws).or (if addr.toNat / 0x2000 = region then some v else none) := by
  by_cases h : addr.toNat / 0x2000 = region
  · simp only [lastWriteTo, List.filter_cons, h, decide_true, if_true, List.getLast?_cons]
    cases (ws.filter fun w => w.1.toNat / 0x2000 = region).getLast? <;> rfl
  · simp [lastWriteTo, h]

/-- A field after a sequence of writes, by its first write: that write only changes the field's old value. -/
theorem getD_map_lastWriteTo_cons {α : Type} (f : Byte → α) (old : α) (region : Nat) (addr : Addr) (v : Byte)
    (ws : List (Addr × Byte)) :
    ((lastWriteTo region ((addr, v) :: ws)).map f).getD old =
      ((lastWriteTo region ws).map f).getD (if addr.toNat / 0x2000 = region then f v else old) := by
  rw [lastWriteTo_cons]
  cases lastWriteTo region ws with
  | some w => rfl
  | none => by_cases h : addr.toNat / 0x2000 = region <;> simp [h]

theorem mbc1WriteAll_cons_of_ok {m m' : Mbc1} {addr : Addr} {v : Byte} (h : mbc1Write m addr v = .ok m')
    (ws : List (Addr × Byte)) : mbc1WriteAll m ((addr, v) :: ws) = mbc1WriteAll m' ws := by
  simp only [mbc1WriteAll, h]

/-! ## The active ROM bank by window (R53) -/

/-- The bank that `bank2` alone selects, as a number. -/
theorem bank2_shift_toNat (n : BitVec 2) : (n.setWidth 7 <<< 5).toNat = n.toNat * 32 := by
  have := n.isLt
  simp only [BitVec.toNat_shiftLeft, BitVec.toNat_setWidth, Nat.shiftLeft_eq]
  omega

theorem activeRomBank_bank0_window (m : Mbc1) {addr : Addr} (h : addr.toNat ≤ 0x3FFF) :
    ∃ bank, activeRomBank m addr = .ok bank ∧ bank.toNat = if m.mode then m.bank2.toNat * 32 else 0 := by
  refine ⟨_, if_pos h, ?_⟩
  split
  · exact bank2_shift_toNat m.bank2
  · rfl

theorem activeRomBank_switchable_window (m : Mbc1) {addr : Addr} (hlo : 0x4000 ≤ addr.toNat)
    (hhi : addr.toNat ≤ 0x7FFF) :
    ∃ bank, activeRomBank m addr = .ok bank ∧ bank.toNat = m.bank2.toNat * 32 + m.bank1.toNat := by
  have h0 : ¬addr.toNat ≤ 0x3FFF := by omega
  refine ⟨_, (if_neg h0).trans (if_pos hhi), ?_⟩
  have h1 := m.bank1.isLt
  have h2 := m.bank2.isLt
  rw [BitVec.toNat_add, bank2_shift_toNat, BitVec.toNat_setWidth]
  omega

theorem activeRomBank_of_not_inCart (m : Mbc1) {addr : Addr} (h : ¬InCart addr) :
    activeRomBank m addr = .fault (.controllerBadQuery addr) := by
  have h0 : ¬addr.toNat ≤ 0x3FFF := by omega
  simp only [activeRomBank, if_neg h0, if_neg h]

/-- With `bank1` not 0 the bank of the switchable window is no multiple of 32 (R54). -/
theorem activeRomBank_switchable_mod_ne_zero {m : Mbc1} {addr : Addr} {bank : BitVec 7} (hm : m.bank1 ≠ 0)
    (hlo : 0x4000 ≤ addr.toNat) (h : activeRomBank m addr = .ok bank) : bank.toNat % 32 ≠ 0 := by
  by_cases hc : InCart addr
  · obtain ⟨bank', hok, hnum⟩ := activeRomBank_switchable_window m hlo hc
    obtain rfl : bank' = bank := Res.ok.inj (hok.symm.trans h)
    have hpos : m.bank1.toNat ≠ 0 := fun e => hm (BitVec.eq_of_toNat_eq e)
    have hlt := m.bank1.isLt
    omega
  · rw [activeRomBank_of_not_inCart m hc] at h
    cases h

/-! ## Where the Bus routes an address (R42, R43) -/

theorem busWrite_of_inCart {s : State} {addr : Addr} {v : Byte} {m : Mbc1} (h : InCart addr)
    (hm : mbc1Write s.mbc1 addr v = .ok m) : busWrite s addr v = .ok { s with mbc1 := m } := by
  simp only [busWrite, if_pos h, hm]

theorem busRead_of_not_mapped (s : State) {addr : Addr} (h : ¬Mapped addr) :
    busRead s addr = .fault (.busUnmapped addr .read) := by
  obtain ⟨hc, hw⟩ := not_or.mp h
  simp only [busRead, if_neg hc, if_neg hw]

theorem busWrite_of_not_mapped (s : State) {addr : Addr} (v : Byte) (h : ¬Mapped addr) :
    busWrite s addr v = .fault (.busUnmapped addr .write) := by
  obtain ⟨hc, hw⟩ := not_or.mp h
  simp only [busWrite, if_neg hc, if_neg hw]

theorem not_mapped_of_outside {addr : Addr} (hc : 0x7FFF < addr.toNat)
    (hw : addr.toNat < 0xC000 ∨ 0xDFFF < addr.toNat) : ¬Mapped addr := by
  rintro (h | ⟨hlo, hhi⟩) <;> omega

/-- Two work-RAM addresses with one index are the same: the work RAM has no mirror of itself (R46). -/
theorem eq_of_wramIndex_eq {addr other : Addr} (h : InWram addr) (h' : InWram other)
    (hi : wramIndex other = wramIndex addr) : other = addr := by
  have hlo : 0xC000 ≤ addr.toNat := h.1
  have hlo' : 0xC000 ≤ other.toNat := h'.1
  unfold wramIndex at hi
  exact BitVec.eq_of_toNat_eq (by omega)

/-- Every Bus read after a byte is written into work RAM (R46). -/
theorem busRead_wramWrite (s : State) {addr : Addr} (v : Byte) (h : InWram addr) (other : Addr) :
    busRead { s with wram := wramWrite s.wram (wramIndex addr) v } other =
      if other = addr then .ok v else busRead s other := by
  split
  · next heq =>
    rw [heq, busRead_of_inWram h, wramByte_wramWrite_same]
  · next hne =>
    by_cases hw : InWram other
    · have hidx : wramIndex other ≠ wramIndex addr := fun hi => hne (eq_of_wramIndex_eq h hw hi)
      rw [busRead_of_inWram hw, busRead_of_inWram hw, wramByte_wramWrite_of_ne hidx]
    · simp only [busRead, if_neg hw]

end Sys2Proof.Machine
end

section
/-! PROOF. The statements about memory: the Bus map, the work RAM, the MBC1 and the active ROM bank. -/

namespace Sys2Proof.Machine

/-- Settles O23: the three branches of the Bus map. -/
theorem busReadRoutesByAddress : Obligations.BusReadRoutesByAddress := by
  unfold Obligations.BusReadRoutesByAddress
  exact fun s addr => ⟨busRead_of_inCart, fun hlo hhi => busRead_of_inWram ⟨hlo, hhi⟩,
    fun hc hw => busRead_of_not_mapped s (not_mapped_of_outside hc hw)⟩

/-- Settles O24: the three branches of the Bus map; the MBC1 accepts every write of its range. -/
theorem busWriteRoutesByAddress : Obligations.BusWriteRoutesByAddress := by
  unfold Obligations.BusWriteRoutesByAddress
  refine fun s addr v => ⟨fun hc => ?_, fun hlo hhi => busWrite_of_inWram v ⟨hlo, hhi⟩,
    fun hc hw => busWrite_of_not_mapped s v (not_mapped_of_outside hc hw)⟩
  obtain ⟨m, hm⟩ := mbc1Write_of_inCart s.mbc1 v hc
  exact ⟨m, hm, busWrite_of_inCart hc hm⟩

/-- Settles O25: the written index is read back, and no other address shares it. -/
theorem workRamReadsBackWhatWasStored : Obligations.WorkRamReadsBackWhatWasStored := by
  unfold Obligations.WorkRamReadsBackWhatWasStored
  refine ⟨fun s addr v h => ⟨_, busWrite_of_inWram v h, busRead_wramWrite s v h⟩, rfl, rfl, fun s addr v hlo hhi => ?_⟩
  have hun : ¬Mapped addr := not_mapped_of_outside (by omega) (.inr (by omega))
  exact ⟨busRead_of_not_mapped s hun, busWrite_of_not_mapped s v hun⟩

/-- Settles O26: the equation of each region, its field's value as a number. -/
theorem mbc1WriteSetsOneFieldFromTheByte : Obligations.Mbc1WriteSetsOneFieldFromTheByte := by
  unfold Obligations.Mbc1WriteSetsOneFieldFromTheByte
  refine fun m addr v => ⟨fun h => ?_, fun hlo hhi => ?_, fun hlo hhi => ?_, fun hlo hhi => ?_, fun h => ?_⟩
  · rw [mbc1Write_ramGate_region m v h, ramGateOf_eq_decide_mod]
  · exact ⟨bank1Of v, mbc1Write_bank1_region m v hlo hhi, bank1Of_toNat v⟩
  · exact ⟨bank2Of v, mbc1Write_bank2_region m v hlo hhi, bank2Of_toNat v⟩
  · rw [mbc1Write_mode_region m v hlo hhi, modeOf_eq_decide_odd]
  · exact mbc1Write_of_not_inCart m v (Nat.not_le.mpr h)

/-- Settles O27, by induction on the writes: the first one changes only the old values the others start from. -/
theorem mbc1StateIsTheLastWritePerRegion : Obligations.Mbc1StateIsTheLastWritePerRegion := by
  unfold Obligations.Mbc1StateIsTheLastWritePerRegion
  intro m ws
  induction ws generalizing m with
  | nil => intro _; rfl
  | cons w ws ih =>
    obtain ⟨addr, v⟩ := w
    intro hws
    obtain ⟨haddr, hrest⟩ := List.forall_mem_cons.mp hws
    rw [mbc1WriteAll_cons_of_ok (mbc1Write_eq_by_region m v haddr), ih _ hrest]
    simp only [getD_map_lastWriteTo_cons]

/-- Settles O28: the bank of each window as a number; `ramGate` stands in no branch of the resolution. -/
theorem activeRomBankByWindow : Obligations.ActiveRomBankByWindow := by
  unfold Obligations.ActiveRomBankByWindow
  exact fun m addr => ⟨activeRomBank_bank0_window m, activeRomBank_switchable_window m,
    fun h => activeRomBank_of_not_inCart m (Nat.not_le.mpr h), fun _ => rfl⟩

/-- Settles O29: the four banks are the multiples of 32, and the low five bits of a switchable bank are `bank1`. -/
theorem banksUnreachableThroughSwitchableWindow : Obligations.BanksUnreachableThroughSwitchableWindow := by
  unfold Obligations.BanksUnreachableThroughSwitchableWindow
  refine ⟨fun m addr bank hm hlo h => ?_, fun m m' reg addr v hrlo hrhi hv hlo hhi h => ?_, fun m addr h hmode => ?_⟩
  · have hmod := activeRomBank_switchable_mod_ne_zero hm hlo h
    have hne : ∀ k : BitVec 7, k.toNat % 32 = 0 → bank ≠ k := fun k hk e => hmod (e ▸ hk)
    exact ⟨hne 0x00 rfl, hne 0x20 rfl, hne 0x40 rfl, hne 0x60 rfl⟩
  · obtain rfl : _ = m' := Res.ok.inj ((mbc1Write_bank1_region m v hrlo hrhi).symm.trans h)
    obtain ⟨bank, hok, hnum⟩ := activeRomBank_switchable_window { m with bank1 := bank1Of v } hlo hhi
    have hone : (bank1Of v).toNat = 1 := by rw [bank1Of_toNat, if_pos hv]
    exact ⟨bank, hok, by rw [hnum, hone]⟩
  · obtain ⟨bank, hok, hnum⟩ := activeRomBank_bank0_window m h
    exact ⟨bank, hok, by rw [hnum, if_pos hmode]⟩

end Sys2Proof.Machine
end

section
/-! PROOF. The rules the statements about the encoding rest on: a 16-bit immediate and its two bytes, and what the decoder
and the fetch make of two operand bytes. -/

namespace Sys2Proof

/-! ## A word from its bytes (R87) -/

/-- The immediate's halves do not overlap, so it is the compound view of its two bytes (R12). -/
theorem wordOfBytes_eq_compound (lo hi : Byte) : wordOfBytes lo hi = Machine.compound hi lo := by
  have hdisjoint : hi.setWidth 16 <<< 8 &&& lo.setWidth 16 = 0#16 := by
    ext k hk
    by_cases hlow : k < 8
    · simp [hlow]
    · simp [BitVec.getLsbD_of_ge lo k (Nat.le_of_not_lt hlow)]
  exact (BitVec.add_eq_or_of_and_eq_zero _ _ hdisjoint).symm

theorem wordOfBytes_toNat (lo hi : Byte) : (wordOfBytes lo hi).toNat = hi.toNat * 256 + lo.toNat := by
  rw [wordOfBytes_eq_compound, Machine.compound_toNat]

theorem lowByte_toNat (nn : Addr) : (lowByte nn).toNat = nn.toNat % 256 := BitVec.toNat_setWidth 8 nn

theorem highByte_toNat (nn : Addr) : (highByte nn).toNat = nn.toNat / 256 := by
  have hlt := nn.isLt
  simp only [highByte, BitVec.toNat_setWidth, BitVec.toNat_ushiftRight, Nat.shiftRight_eq_div_pow]
  omega

@[simp] theorem wordOfBytes_lowByte_highByte (nn : Addr) : wordOfBytes (lowByte nn) (highByte nn) = nn := by
  refine BitVec.eq_of_toNat_eq ?_
  rw [wordOfBytes_toNat, lowByte_toNat, highByte_toNat]
  exact Nat.div_add_mod' nn.toNat 256

/-- The decoder on an opcode of the format OP_NN (R83). -/
theorem decode_of_opNN {op : Byte} {mk : Addr → Instr} (h : opcodeEntry op = some (.opNN mk)) (lo hi : Byte)
    (rest : List Byte) : decode (op :: lo :: hi :: rest) = .instr (mk (wordOfBytes lo hi)) rest := by
  simp only [decode, h]

end Sys2Proof

namespace Sys2Proof.Machine

/-- A fetch of two bytes the Bus can read: the first is the low byte (R6, R60). -/
theorem fetch16_of_ok {s : State} {lo hi : Byte} (hlo : busRead s s.pc = .ok lo)
    (hhi : busRead s (nextPc s.pc) = .ok hi) : fetch16 s = .got (wordOfBytes lo hi) { s with pc := s.pc + 2 } := by
  have hsecond := fetch8_of_ok (s := { s with pc := nextPc s.pc }) hhi
  simp only [fetch16, fetch8_of_ok hlo, hsecond, nextPc_nextPc]

end Sys2Proof.Machine
end

section
/-! PROOF. The statements about the encoding. -/

namespace Sys2Proof.Machine

/-- Settles O38: the immediate is the compound of its two bytes, and the encoder, the decoder and the fetch take them in one
order; the three effects address `nn` by their definitions. -/
theorem immediateWordIsLittleEndian : Obligations.ImmediateWordIsLittleEndian := by
  unfold Obligations.ImmediateWordIsLittleEndian
  refine ⟨wordOfBytes_toNat, wordOfBytes_lowByte_highByte, rfl, fun nn i hi => ?_,
    fun op lo hi mk h => decode_of_opNN h lo hi [], fun s lo hi => fetch16_of_ok, fun nn s => ⟨rfl, rfl, rfl⟩⟩
  have hops : i.operandBytes = [lowByte nn, highByte nn] := by
    simp only [List.mem_cons, List.not_mem_nil, or_false] at hi
    obtain rfl | rfl | rfl := hi <;> rfl
  exact ⟨hops, congrArg (i.opcode :: ·) hops⟩

end Sys2Proof.Machine
end

section
/-! PROOF. The rules the statements about `LD r,r'` rest on: a fetched opcode without operand bytes, a faulted opcode read,
and the class `ldRR` as one register copy. -/

namespace Sys2Proof.Machine

/-! ## The fetch of an opcode without operand bytes (R81, R97) -/

theorem fetchInstr_of_op {s : State} {op : Byte} {i : Instr} (h : busRead s s.pc = .ok op)
    (he : opcodeEntry op = some (.op i)) : fetchInstr s = .got i { s with pc := s.pc + 1 } := by
  simp only [fetchInstr, fetch8_of_ok h, he, nextPc]

theorem step_of_op {s : State} {op : Byte} {i : Instr} (h : busRead s s.pc = .ok op)
    (he : opcodeEntry op = some (.op i)) : step s = exec i { s with pc := s.pc + 1 } := by
  simp only [step, fetchInstr_of_op h he]

theorem transactions_of_op {s : State} {op : Byte} {i : Instr} (h : busRead s s.pc = .ok op)
    (he : opcodeEntry op = some (.op i)) : transactions s = .read s.pc :: (dataAccess i s).toList := by
  simp only [transactions, h, he]

/-- A fault of the opcode read ends the fetch before anything is changed, and with it the step (R97). -/
theorem opcodeReadFaultEnds (s : State) : OpcodeReadFaultEnds s := by
  intro f h
  have hfetch : fetchInstr s = .raised f s := by simp only [fetchInstr, fetch8_of_fault h]
  exact ⟨by simp only [step, hfetch, raiseFault], by simp only [stateAtFault, hfetch]⟩

/-! ## The class `LD dst,src` (R100 to R148) -/

/-- A register write and an assignment of `pc` commute. -/
theorem State.setReg_withPc (s : State) (p : Addr) (r : Reg) (v : Byte) :
    State.setReg { s with pc := p } r v = { s.setReg r v with pc := p } := by
  cases r <;> rfl

/-- The opcode map on the 49 register copies: each stands at its own opcode byte, without operand bytes. -/
theorem opcodeEntry_ldRR (dst src : Reg) :
    opcodeEntry (Instr.ldRR dst src).opcode = some (.op (.ldRR dst src)) := by
  cases dst <;> cases src <;> rfl

@[simp] theorem exec_ldRR (dst src : Reg) (s : State) : exec (.ldRR dst src) s = copyReg dst src s := by
  cases dst <;> cases src <;> rfl

@[simp] theorem dataAccess_ldRR (dst src : Reg) (s : State) : dataAccess (.ldRR dst src) s = none := by
  cases dst <;> cases src <;> rfl

/-- A step that reads the opcode of `LD dst,src` copies the register and moves `pc` by one. -/
theorem step_ldRR {dst src : Reg} {s : State} (h : busRead s s.pc = .ok (Instr.ldRR dst src).opcode) :
    step s = .next { s.setReg dst (s.reg src) with pc := s.pc + 1, cycles := 1 } := by
  rw [step_of_op h (opcodeEntry_ldRR dst src), exec_ldRR, copyReg, State.reg_pc, State.setReg_withPc, complete]

/-- The opcode read is the only transaction of `LD dst,src` (R64). -/
theorem transactions_ldRR {dst src : Reg} {s : State} (h : busRead s s.pc = .ok (Instr.ldRR dst src).opcode) :
    transactions s = [.read s.pc] := by
  rw [transactions_of_op h (opcodeEntry_ldRR dst src), dataAccess_ldRR, Option.toList_none]

/-- `LD dst,src` as an effect, as a step, and when its opcode read faults, for every pair of registers. -/
theorem ldRR_copies (dst src : Reg) (s : State) :
    exec (.ldRR dst src) s = .next { s.setReg dst (s.reg src) with cycles := 1 } ∧
      (busRead s s.pc = .ok (Instr.ldRR dst src).opcode →
        step s = .next { s.setReg dst (s.reg src) with pc := s.pc + 1, cycles := 1 } ∧ transactions s = [.read s.pc]) ∧
      OpcodeReadFaultEnds s :=
  ⟨exec_ldRR dst src s, fun h => ⟨step_ldRR h, transactions_ldRR h⟩, opcodeReadFaultEnds s⟩

end Sys2Proof.Machine
end

section
/-! PROOF. The statements about `LD r,r'` (spec/40_ld_r_r.md), one destination each: `ldRR_copies` with the write of that
register written out. -/

namespace Sys2Proof.Machine

/-- Settles O8: the register copy with destination `b`. -/
theorem ldBFromEachRegister : Obligations.LdBFromEachRegister := by
  unfold Obligations.LdBFromEachRegister
  exact fun src s => ldRR_copies .b src s

/-- Settles O9: the register copy with destination `c`. -/
theorem ldCFromEachRegister : Obligations.LdCFromEachRegister := by
  unfold Obligations.LdCFromEachRegister
  exact fun src s => ldRR_copies .c src s

/-- Settles O10: the register copy with destination `d`. -/
theorem ldDFromEachRegister : Obligations.LdDFromEachRegister := by
  unfold Obligations.LdDFromEachRegister
  exact fun src s => ldRR_copies .d src s

/-- Settles O11: the register copy with destination `e`. -/
theorem ldEFromEachRegister : Obligations.LdEFromEachRegister := by
  unfold Obligations.LdEFromEachRegister
  exact fun src s => ldRR_copies .e src s

/-- Settles O12: the register copy with destination `h`. -/
theorem ldHFromEachRegister : Obligations.LdHFromEachRegister := by
  unfold Obligations.LdHFromEachRegister
  exact fun src s => ldRR_copies .h src s

/-- Settles O13: the register copy with destination `l`. -/
theorem ldLFromEachRegister : Obligations.LdLFromEachRegister := by
  unfold Obligations.LdLFromEachRegister
  exact fun src s => ldRR_copies .l src s

/-- Settles O14: the register copy with destination `a`. -/
theorem ldAFromEachRegister : Obligations.LdAFromEachRegister := by
  unfold Obligations.LdAFromEachRegister
  exact fun src s => ldRR_copies .a src s

end Sys2Proof.Machine
end

section
/-! PROOF. The rules the statement about `LD r,n` rests on: a fetched opcode with one operand byte, a faulted read of that
byte, and the class `ldRN` as one immediate load. -/

namespace Sys2Proof.Machine

/-! ## The fetch of an opcode with one operand byte (R82, R97, R208) -/

theorem fetchInstr_of_opN {s : State} {op n : Byte} {mk : Byte → Instr} (h : busRead s s.pc = .ok op)
    (he : opcodeEntry op = some (.opN mk)) (hn : busRead s (s.pc + 1) = .ok n) :
    fetchInstr s = .got (mk n) { s with pc := s.pc + 2 } := by
  have hoperand := fetch8_of_ok (s := { s with pc := nextPc s.pc }) hn
  simp only [fetchInstr, fetch8_of_ok h, he, hoperand, nextPc_nextPc]

theorem fetchInstr_of_opN_fault {s : State} {op : Byte} {f : Fault} {mk : Byte → Instr} (h : busRead s s.pc = .ok op)
    (he : opcodeEntry op = some (.opN mk)) (hf : busRead s (s.pc + 1) = .fault f) :
    fetchInstr s = .raised f { s with pc := s.pc + 1 } := by
  have hoperand := fetch8_of_fault (s := { s with pc := nextPc s.pc }) hf
  simp only [fetchInstr, fetch8_of_ok h, he, hoperand]
  rfl

theorem step_of_opN {s : State} {op n : Byte} {mk : Byte → Instr} (h : busRead s s.pc = .ok op)
    (he : opcodeEntry op = some (.opN mk)) (hn : busRead s (s.pc + 1) = .ok n) :
    step s = exec (mk n) { s with pc := s.pc + 2 } := by
  simp only [step, fetchInstr_of_opN h he hn]

theorem transactions_of_opN {s : State} {op n : Byte} {mk : Byte → Instr} (h : busRead s s.pc = .ok op)
    (he : opcodeEntry op = some (.opN mk)) (hn : busRead s (s.pc + 1) = .ok n) :
    transactions s = .read s.pc :: .read (s.pc + 1) :: (dataAccess (mk n) s).toList := by
  simp only [transactions, h, he, hn]

/-- A faulted fetch is the end of the step, at the state the fetch had reached (R208). -/
theorem step_of_fetchInstr_raised {s t : State} {f : Fault} (h : fetchInstr s = .raised f t) :
    step s = .fault f ∧ stateAtFault s = t :=
  ⟨by simp only [step, h, raiseFault], by simp only [stateAtFault, h]⟩

/-- The one operand byte is the only one whose read can fault. -/
theorem operandReadFaultEnds_of_opN {op : Byte} {mk : Byte → Instr} (he : opcodeEntry op = some (.opN mk)) (s : State) :
    OperandReadFaultEnds op 1 s := by
  intro k f hk hop _ hf
  obtain rfl : k = 0 := Nat.lt_one_iff.mp hk
  exact step_of_fetchInstr_raised (fetchInstr_of_opN_fault hop he hf)

/-! ## The class `LD dst,n` (R150 to R156) -/

/-- The opcode map on the seven immediate loads: each stands at its own opcode byte, with one operand byte. -/
theorem opcodeEntry_ldRN (dst : Reg) (n : Byte) :
    opcodeEntry (Instr.ldRN dst n).opcode = some (.opN (Instr.ldRN dst)) := by
  cases dst <;> rfl

@[simp] theorem exec_ldRN (dst : Reg) (n : Byte) (s : State) : exec (.ldRN dst n) s = loadImm dst n s := by
  cases dst <;> rfl

@[simp] theorem dataAccess_ldRN (dst : Reg) (n : Byte) (s : State) : dataAccess (.ldRN dst n) s = none := by
  cases dst <;> rfl

/-- A step that reads the opcode of `LD dst,n` and then `n` loads the register and moves `pc` by two. -/
theorem step_ldRN {dst : Reg} {n : Byte} {s : State} (h : busRead s s.pc = .ok (Instr.ldRN dst n).opcode)
    (hn : busRead s (s.pc + 1) = .ok n) : step s = .next { s.setReg dst n with pc := s.pc + 2, cycles := 2 } := by
  rw [step_of_opN h (opcodeEntry_ldRN dst n) hn, exec_ldRN, loadImm, State.setReg_withPc, complete]

/-- The two fetches are the only transactions of `LD dst,n` (R64). -/
theorem transactions_ldRN {dst : Reg} {n : Byte} {s : State} (h : busRead s s.pc = .ok (Instr.ldRN dst n).opcode)
    (hn : busRead s (s.pc + 1) = .ok n) : transactions s = [.read s.pc, .read (s.pc + 1)] := by
  rw [transactions_of_opN h (opcodeEntry_ldRN dst n) hn, dataAccess_ldRN, Option.toList_none]

end Sys2Proof.Machine
end

section
/-! PROOF. The statement about `LD r,n` (spec/41_ld_r_n.md). -/

namespace Sys2Proof.Machine

/-- Settles O15: one immediate load, of the byte fetched after the opcode; the fetch ends at the first read that faults. -/
theorem ldRegisterImmediate : Obligations.LdRegisterImmediate := by
  unfold Obligations.LdRegisterImmediate
  intro dst n s
  exact ⟨exec_ldRN dst n s, fun h hn => ⟨step_ldRN h hn, transactions_ldRN h hn⟩, opcodeReadFaultEnds s,
    operandReadFaultEnds_of_opN (opcodeEntry_ldRN dst n) s⟩

end Sys2Proof.Machine
end

section
/-! PROOF. The rules the statements about loads and stores through `HL` rest on: what a load and a store of one byte answer
at any address, and the classes `ldRMemHL` and `ldMemHLR` as one load and one store. -/

namespace Sys2Proof.Machine

/-! ## A load and a store of one byte, by where the address is routed (R42, R43) -/

theorem loadByte_of_ok {dst : Reg} {addr : Addr} {cost : BitVec 8} {s : State} {v : Byte} (h : busRead s addr = .ok v) :
    loadByte dst addr cost s = .next { s.setReg dst v with cycles := cost } := by
  simp only [loadByte, h, complete]

theorem loadByte_of_fault {dst : Reg} {addr : Addr} {cost : BitVec 8} {s : State} {f : Fault}
    (h : busRead s addr = .fault f) : loadByte dst addr cost s = .fault f := by
  simp only [loadByte, h, raiseFault]

theorem storeByte_of_ok {addr : Addr} {v : Byte} {cost : BitVec 8} {s t : State} (h : busWrite s addr v = .ok t) :
    storeByte addr v cost s = .next { t with cycles := cost } := by
  simp only [storeByte, h, complete]

theorem storeByte_of_fault {addr : Addr} {v : Byte} {cost : BitVec 8} {s : State} {f : Fault}
    (h : busWrite s addr v = .fault f) : storeByte addr v cost s = .fault f := by
  simp only [storeByte, h, raiseFault]

theorem loadByte_loadsByte (dst : Reg) (addr : Addr) (cost : BitVec 8) (s : State) :
    LoadsByte dst addr cost s (loadByte dst addr cost s) :=
  ⟨fun _ h => loadByte_of_ok h, fun _ h => loadByte_of_fault h, fun h => loadByte_of_fault (busRead_of_not_mapped s h)⟩

/-- A store is one Bus write; a write to an MBC1 register leaves the work RAM, and so every read of it, as it was. -/
theorem storeByte_storesByte (addr : Addr) (v : Byte) (cost : BitVec 8) (s : State) :
    StoresByte addr v cost s (storeByte addr v cost s) := by
  refine ⟨fun hw => ?_, fun hc => ?_, fun h => storeByte_of_fault (busWrite_of_not_mapped s v h)⟩
  · exact ⟨_, storeByte_of_ok (busWrite_of_inWram v hw), rfl, busRead_wramWrite { s with cycles := cost } v hw⟩
  · obtain ⟨m, hm⟩ := mbc1Write_of_inCart s.mbc1 v hc
    refine ⟨_, m, storeByte_of_ok (busWrite_of_inCart hc hm), hm, rfl, fun other hother => ?_⟩
    rw [busRead_of_inWram hother, busRead_of_inWram hother]

/-! ## The classes `LD dst,[HL]` (R160 to R166) and `LD [HL],src` (R167 to R173) -/

/-- The opcode map on the seven loads through `HL`: each stands at its own opcode byte, without operand bytes. -/
theorem opcodeEntry_ldRMemHL (dst : Reg) : opcodeEntry (Instr.ldRMemHL dst).opcode = some (.op (.ldRMemHL dst)) := by
  cases dst <;> rfl

@[simp] theorem exec_ldRMemHL (dst : Reg) (s : State) : exec (.ldRMemHL dst) s = loadByte dst s.hl 2 s := by
  cases dst <;> rfl

@[simp] theorem dataAccess_ldRMemHL (dst : Reg) (s : State) : dataAccess (.ldRMemHL dst) s = some (.read s.hl) := by
  cases dst <;> rfl

/-- The opcode map on the seven register stores through `HL`. -/
theorem opcodeEntry_ldMemHLR (src : Reg) : opcodeEntry (Instr.ldMemHLR src).opcode = some (.op (.ldMemHLR src)) := by
  cases src <;> rfl

@[simp] theorem exec_ldMemHLR (src : Reg) (s : State) : exec (.ldMemHLR src) s = storeByte s.hl (s.reg src) 2 s := by
  cases src <;> rfl

@[simp] theorem dataAccess_ldMemHLR (src : Reg) (s : State) :
    dataAccess (.ldMemHLR src) s = some (.write s.hl (s.reg src)) := by
  cases src <;> rfl

/-- The opcode read and the read of `HL` are the transactions of `LD dst,[HL]` (R64). -/
theorem transactions_ldRMemHL {dst : Reg} {s : State} (h : busRead s s.pc = .ok (Instr.ldRMemHL dst).opcode) :
    transactions s = [.read s.pc, .read s.hl] := by
  rw [transactions_of_op h (opcodeEntry_ldRMemHL dst), dataAccess_ldRMemHL, Option.toList_some]

/-- The opcode read and the write of `HL` are the transactions of `LD [HL],src` (R64). -/
theorem transactions_ldMemHLR {src : Reg} {s : State} (h : busRead s s.pc = .ok (Instr.ldMemHLR src).opcode) :
    transactions s = [.read s.pc, .write s.hl (s.reg src)] := by
  rw [transactions_of_op h (opcodeEntry_ldMemHLR src), dataAccess_ldMemHLR, Option.toList_some]

/-! ## `LD [HL],n` (R174) -/

theorem opcodeEntry_ldMemHLN (n : Byte) : opcodeEntry (Instr.ldMemHLN n).opcode = some (.opN .ldMemHLN) := rfl

@[simp] theorem exec_ldMemHLN (n : Byte) (s : State) : exec (.ldMemHLN n) s = storeByte s.hl n 3 s := rfl

@[simp] theorem dataAccess_ldMemHLN (n : Byte) (s : State) : dataAccess (.ldMemHLN n) s = some (.write s.hl n) := rfl

/-- The two fetches and then the write of `HL` are the transactions of `LD [HL],n` (R64). -/
theorem transactions_ldMemHLN {n : Byte} {s : State} (h : busRead s s.pc = .ok (Instr.ldMemHLN n).opcode)
    (hn : busRead s (s.pc + 1) = .ok n) : transactions s = [.read s.pc, .read (s.pc + 1), .write s.hl n] := by
  rw [transactions_of_opN h (opcodeEntry_ldMemHLN n) hn, dataAccess_ldMemHLN, Option.toList_some]

end Sys2Proof.Machine
end

section
/-! PROOF. The statements about loads and stores through `HL` (spec/42_ld_hl_indirect.md). -/

namespace Sys2Proof.Machine

/-- Settles O16: one load from `HL`, the address taken before the destination is written. -/
theorem ldRegisterFromHL : Obligations.LdRegisterFromHL := by
  unfold Obligations.LdRegisterFromHL
  intro dst s
  refine ⟨?_, fun h => ⟨step_of_op h (opcodeEntry_ldRMemHL dst), transactions_ldRMemHL h⟩, opcodeReadFaultEnds s⟩
  rw [exec_ldRMemHL]
  exact loadByte_loadsByte dst s.hl 2 s

/-- Settles O17: one store to `HL`, of a register as it was before. -/
theorem ldRegisterToHL : Obligations.LdRegisterToHL := by
  unfold Obligations.LdRegisterToHL
  intro src s
  refine ⟨?_, fun h => ⟨step_of_op h (opcodeEntry_ldMemHLR src), transactions_ldMemHLR h⟩, opcodeReadFaultEnds s⟩
  rw [exec_ldMemHLR]
  exact storeByte_storesByte s.hl (s.reg src) 2 s

/-- Settles O18: one store to `HL`, of the byte fetched after the opcode; the fetch ends at the first read that faults. -/
theorem ldImmediateToHL : Obligations.LdImmediateToHL := by
  unfold Obligations.LdImmediateToHL
  intro n s
  refine ⟨?_, fun h hn => ⟨step_of_opN h (opcodeEntry_ldMemHLN n) hn, transactions_ldMemHLN h hn⟩,
    opcodeReadFaultEnds s, operandReadFaultEnds_of_opN (opcodeEntry_ldMemHLN n) s⟩
  rw [exec_ldMemHLN]
  exact storeByte_storesByte s.hl n 3 s

end Sys2Proof.Machine
end

section
/-! PROOF. The rules the statement about the accumulator and the pairs rests on: a step of an instruction without operand
bytes and with one data access, and the four forms as one load or one store. -/

namespace Sys2Proof.Machine

/-! ## A step of an opcode without operand bytes and with one data access (R64, R97) -/

theorem step_and_transactions_of_op_dataAccess {s : State} {i : Instr} {x : Transaction}
    (he : opcodeEntry i.opcode = some (.op i)) (hx : dataAccess i s = some x) (h : busRead s s.pc = .ok i.opcode) :
    step s = exec i { s with pc := s.pc + 1 } ∧ transactions s = [.read s.pc, x] := by
  refine ⟨step_of_op h he, ?_⟩
  rw [transactions_of_op h he, hx, Option.toList_some]

/-! ## The four forms through `BC` and `DE` (R180 to R183) -/

@[simp] theorem exec_ldAMemBC (s : State) : exec .ldAMemBC s = loadByte .a s.bc 2 s := rfl

@[simp] theorem exec_ldAMemDE (s : State) : exec .ldAMemDE s = loadByte .a s.de 2 s := rfl

@[simp] theorem exec_ldMemBCA (s : State) : exec .ldMemBCA s = storeByte s.bc s.a 2 s := rfl

@[simp] theorem exec_ldMemDEA (s : State) : exec .ldMemDEA s = storeByte s.de s.a 2 s := rfl

end Sys2Proof.Machine
end

section
/-! PROOF. The statement about the accumulator and the pairs (spec/43_ld_bc_de_indirect.md). -/

namespace Sys2Proof.Machine

/-- Settles O19: two loads and two stores of `a`, each at the pair's address; each opcode stands in the map without operand
bytes, and its data access is that load or store. -/
theorem accumulatorThroughPairs : Obligations.AccumulatorThroughPairs := by
  unfold Obligations.AccumulatorThroughPairs
  intro s
  rw [exec_ldAMemBC, exec_ldAMemDE, exec_ldMemBCA, exec_ldMemDEA]
  exact ⟨loadByte_loadsByte .a s.bc 2 s, loadByte_loadsByte .a s.de 2 s,
    storeByte_storesByte s.bc s.a 2 s, storeByte_storesByte s.de s.a 2 s,
    step_and_transactions_of_op_dataAccess rfl rfl, step_and_transactions_of_op_dataAccess rfl rfl,
    step_and_transactions_of_op_dataAccess rfl rfl, step_and_transactions_of_op_dataAccess rfl rfl,
    opcodeReadFaultEnds s⟩

end Sys2Proof.Machine
end

section
/-! PROOF. The rules the statement about `JP nn` rests on: a fetched opcode with two operand bytes, a faulted read of one of
them, and the class `jp` as one assignment of `pc`. -/

namespace Sys2Proof.Machine

/-! ## The fetch of an opcode with two operand bytes (R83, R97, R208) -/

theorem fetchInstr_of_opNN {s : State} {op : Byte} {nn : Addr} {mk : Addr → Instr} (h : busRead s s.pc = .ok op)
    (he : opcodeEntry op = some (.opNN mk)) (hlo : busRead s (s.pc + 1) = .ok (lowByte nn))
    (hhi : busRead s (s.pc + 2) = .ok (highByte nn)) : fetchInstr s = .got (mk nn) { s with pc := s.pc + 3 } := by
  rw [← nextPc_nextPc] at hhi
  have hword := fetch16_of_ok (s := { s with pc := nextPc s.pc }) hlo hhi
  rw [wordOfBytes_lowByte_highByte, ← nextPc_nextPc] at hword
  simp only [fetchInstr, fetch8_of_ok h, he, hword, nextPc_nextPc_nextPc]

theorem step_of_opNN {s : State} {op : Byte} {nn : Addr} {mk : Addr → Instr} (h : busRead s s.pc = .ok op)
    (he : opcodeEntry op = some (.opNN mk)) (hlo : busRead s (s.pc + 1) = .ok (lowByte nn))
    (hhi : busRead s (s.pc + 2) = .ok (highByte nn)) : step s = exec (mk nn) { s with pc := s.pc + 3 } := by
  simp only [step, fetchInstr_of_opNN h he hlo hhi]

theorem transactions_of_opNN {s : State} {op : Byte} {nn : Addr} {mk : Addr → Instr} (h : busRead s s.pc = .ok op)
    (he : opcodeEntry op = some (.opNN mk)) (hlo : busRead s (s.pc + 1) = .ok (lowByte nn))
    (hhi : busRead s (s.pc + 2) = .ok (highByte nn)) :
    transactions s =
      .read s.pc :: .read (s.pc + 1) :: .read (s.pc + 2) :: (dataAccess (mk nn) s).toList := by
  simp only [transactions, h, he, hlo, hhi, wordOfBytes_lowByte_highByte]

/-- A word whose low byte cannot be read: the high byte is not asked for (R209). -/
theorem fetch16_of_low_fault {s : State} {f : Fault} (h : busRead s s.pc = .fault f) : fetch16 s = .raised f s := by
  simp only [fetch16, fetch8_of_fault h]

theorem fetch16_of_high_fault {s : State} {lo : Byte} {f : Fault} (hlo : busRead s s.pc = .ok lo)
    (hf : busRead s (nextPc s.pc) = .fault f) : fetch16 s = .raised f { s with pc := nextPc s.pc } := by
  have hsecond := fetch8_of_fault (s := { s with pc := nextPc s.pc }) hf
  simp only [fetch16, fetch8_of_ok hlo, hsecond]

theorem fetchInstr_of_opNN_fault {s t : State} {op : Byte} {f : Fault} {mk : Addr → Instr}
    (h : busRead s s.pc = .ok op) (he : opcodeEntry op = some (.opNN mk))
    (hf : fetch16 { s with pc := nextPc s.pc } = .raised f t) : fetchInstr s = .raised f t := by
  simp only [fetchInstr, fetch8_of_ok h, he, hf]

/-- The low byte's read faults, or the high byte's after it. -/
theorem operandReadFaultEnds_of_opNN {op : Byte} {mk : Addr → Instr} (he : opcodeEntry op = some (.opNN mk))
    (s : State) : OperandReadFaultEnds op 2 s := by
  intro k f hk hop hread hf
  obtain rfl | rfl : k = 0 ∨ k = 1 := by omega
  · exact step_of_fetchInstr_raised (fetchInstr_of_opNN_fault hop he (fetch16_of_low_fault hf))
  · obtain ⟨lo, hlo⟩ := hread 1 le_rfl le_rfl
    have hhigh : busRead s (nextPc (nextPc s.pc)) = .fault f := by rw [nextPc_nextPc]; exact hf
    have hword := fetch16_of_high_fault (s := { s with pc := nextPc s.pc }) hlo hhigh
    rw [nextPc_nextPc] at hword
    exact step_of_fetchInstr_raised (fetchInstr_of_opNN_fault hop he hword)

/-! ## The class `JP nn` (R190) -/

theorem opcodeEntry_jp (nn : Addr) : opcodeEntry (Instr.jp nn).opcode = some (.opNN .jp) := rfl

@[simp] theorem exec_jp (nn : Addr) (s : State) : exec (.jp nn) s = .next { s with pc := nn, cycles := 4 } := rfl

@[simp] theorem dataAccess_jp (nn : Addr) (s : State) : dataAccess (.jp nn) s = none := rfl

/-- A step that reads the opcode of `JP nn` and the two bytes of `nn` assigns `nn` to `pc`, over the increments of the
fetches. -/
theorem step_jp {nn : Addr} {s : State} (h : busRead s s.pc = .ok (Instr.jp nn).opcode)
    (hlo : busRead s (s.pc + 1) = .ok (lowByte nn)) (hhi : busRead s (s.pc + 2) = .ok (highByte nn)) :
    step s = .next { s with pc := nn, cycles := 4 } := by
  rw [step_of_opNN h (opcodeEntry_jp nn) hlo hhi, exec_jp]

/-- The three fetches are the only transactions of `JP nn`: the target is not read (R64). -/
theorem transactions_jp {nn : Addr} {s : State} (h : busRead s s.pc = .ok (Instr.jp nn).opcode)
    (hlo : busRead s (s.pc + 1) = .ok (lowByte nn)) (hhi : busRead s (s.pc + 2) = .ok (highByte nn)) :
    transactions s = [.read s.pc, .read (s.pc + 1), .read (s.pc + 2)] := by
  rw [transactions_of_opNN h (opcodeEntry_jp nn) hlo hhi, dataAccess_jp, Option.toList_none]

/-- A step at an address no device answers faults at its opcode read (R202). -/
theorem step_of_pc_not_mapped {s : State} (h : ¬Mapped s.pc) : step s = .fault (.busUnmapped s.pc .read) :=
  (opcodeReadFaultEnds s _ (busRead_of_not_mapped s h)).1

end Sys2Proof.Machine
end

section
/-! PROOF. The statement about `JP nn` (spec/44_jp_nn.md). -/

namespace Sys2Proof.Machine

/-- Settles O20: one assignment of `pc`, of the word fetched after the opcode; the fetch ends at the first read that faults,
and the target is first read by the next step. -/
theorem jumpAbsolute : Obligations.JumpAbsolute := by
  unfold Obligations.JumpAbsolute
  intro nn s
  exact ⟨exec_jp nn s, fun h hlo hhi => ⟨step_jp h hlo hhi, transactions_jp h hlo hhi⟩,
    step_of_pc_not_mapped (s := { s with pc := nn }), opcodeReadFaultEnds s,
    operandReadFaultEnds_of_opNN (opcodeEntry_jp nn) s⟩

end Sys2Proof.Machine
end

section
/-! PROOF. The rules the statement about the absolute accumulator forms rests on: a step of an instruction with two operand
bytes and one data access, and the two forms as one store and one load. -/

namespace Sys2Proof.Machine

/-! ## A step of an opcode with two operand bytes and one data access (R64, R97) -/

theorem step_and_transactions_of_opNN_dataAccess {s : State} {nn : Addr} {mk : Addr → Instr} {x : Transaction}
    (he : opcodeEntry (mk nn).opcode = some (.opNN mk)) (hx : dataAccess (mk nn) s = some x)
    (hlo : busRead s (s.pc + 1) = .ok (lowByte nn)) (hhi : busRead s (s.pc + 2) = .ok (highByte nn))
    (h : busRead s s.pc = .ok (mk nn).opcode) :
    step s = exec (mk nn) { s with pc := s.pc + 3 } ∧
      transactions s = [.read s.pc, .read (s.pc + 1), .read (s.pc + 2), x] := by
  refine ⟨step_of_opNN h he hlo hhi, ?_⟩
  rw [transactions_of_opNN h he hlo hhi, hx, Option.toList_some]

/-! ## The forms `LD [nn],A` (R195) and `LD A,[nn]` (R196) -/

theorem opcodeEntry_ldMemNNA (nn : Addr) : opcodeEntry (Instr.ldMemNNA nn).opcode = some (.opNN .ldMemNNA) := rfl

@[simp] theorem exec_ldMemNNA (nn : Addr) (s : State) : exec (.ldMemNNA nn) s = storeByte nn s.a 4 s := rfl

@[simp] theorem dataAccess_ldMemNNA (nn : Addr) (s : State) : dataAccess (.ldMemNNA nn) s = some (.write nn s.a) := rfl

theorem opcodeEntry_ldAMemNN (nn : Addr) : opcodeEntry (Instr.ldAMemNN nn).opcode = some (.opNN .ldAMemNN) := rfl

@[simp] theorem exec_ldAMemNN (nn : Addr) (s : State) : exec (.ldAMemNN nn) s = loadByte .a nn 4 s := rfl

@[simp] theorem dataAccess_ldAMemNN (nn : Addr) (s : State) : dataAccess (.ldAMemNN nn) s = some (.read nn) := rfl

end Sys2Proof.Machine
end

section
/-! PROOF. The statement about the absolute accumulator forms (spec/45_ld_abs_a.md). -/

namespace Sys2Proof.Machine

/-- Settles O21: one store and one load of `a` at the word fetched after the opcode; the fetch ends at the first read that
faults, before the data access. -/
theorem accumulatorAbsolute : Obligations.AccumulatorAbsolute := by
  unfold Obligations.AccumulatorAbsolute
  intro nn s
  have hstore := opcodeEntry_ldMemNNA nn
  have hload := opcodeEntry_ldAMemNN nn
  rw [exec_ldMemNNA, exec_ldAMemNN]
  refine ⟨storeByte_storesByte nn s.a 4 s, loadByte_loadsByte .a nn 4 s, fun hlo hhi => ⟨?_, ?_⟩,
    opcodeReadFaultEnds s, operandReadFaultEnds_of_opNN hstore s, operandReadFaultEnds_of_opNN hload s⟩
  · exact step_and_transactions_of_opNN_dataAccess hstore (dataAccess_ldMemNNA nn s) hlo hhi
  · exact step_and_transactions_of_opNN_dataAccess hload (dataAccess_ldAMemNN nn s) hlo hhi

end Sys2Proof.Machine
end

section
/-! PROOF. The rules the statement about the high-page forms rests on: no device answers the address of the form `[C]`, so
the one load and the one store through it fault at every state, and so does a step that fetches one of them. -/

namespace Sys2Proof.Machine

/-! ## A load and a store where no device answers (R42, R43) -/

theorem loadByte_of_not_mapped {dst : Reg} {addr : Addr} {cost : BitVec 8} {s : State} (h : ¬Mapped addr) :
    loadByte dst addr cost s = .fault (.busUnmapped addr .read) :=
  loadByte_of_fault (busRead_of_not_mapped s h)

theorem storeByte_of_not_mapped {addr : Addr} {v : Byte} {cost : BitVec 8} {s : State} (h : ¬Mapped addr) :
    storeByte addr v cost s = .fault (.busUnmapped addr .write) :=
  storeByte_of_fault (busWrite_of_not_mapped s v h)

/-! ## The address of the form `[C]` (R88, R256) -/

/-- The high page lies above work RAM, so no device answers there. -/
theorem highPageC_not_mapped (s : State) : ¬Mapped s.highPageC := by
  have haddr := highPageC_toNat s
  exact not_mapped_of_outside (by omega) (by omega)

/-- The fetches do not move the address: it does not depend on `pc`. -/
@[simp] theorem State.highPageC_withPc (s : State) (p : Addr) : State.highPageC { s with pc := p } = s.highPageC := rfl

/-! ## The forms `LD [C],A` (R198) and `LD A,[C]` (R199) -/

theorem opcodeEntry_ldMemCA : opcodeEntry Instr.ldMemCA.opcode = some (.op .ldMemCA) := rfl

theorem opcodeEntry_ldAMemC : opcodeEntry Instr.ldAMemC.opcode = some (.op .ldAMemC) := rfl

@[simp] theorem exec_ldMemCA (s : State) : exec .ldMemCA s = .fault (.busUnmapped s.highPageC .write) :=
  storeByte_of_not_mapped (highPageC_not_mapped s)

@[simp] theorem exec_ldAMemC (s : State) : exec .ldAMemC s = .fault (.busUnmapped s.highPageC .read) :=
  loadByte_of_not_mapped (highPageC_not_mapped s)

@[simp] theorem dataAccess_ldMemCA (s : State) : dataAccess .ldMemCA s = some (.write s.highPageC s.a) := rfl

@[simp] theorem dataAccess_ldAMemC (s : State) : dataAccess .ldAMemC s = some (.read s.highPageC) := rfl

/-! ## A step of an opcode without operand bytes whose data access faults (R97, R208) -/

/-- Such a step issues the opcode read and the access, and ends with `pc` past the opcode and nothing else changed. -/
theorem step_of_op_fault {s : State} {i : Instr} {x : Transaction} {f : Fault}
    (he : opcodeEntry i.opcode = some (.op i)) (hx : dataAccess i s = some x)
    (hf : exec i { s with pc := s.pc + 1 } = .fault f) (h : busRead s s.pc = .ok i.opcode) :
    step s = .fault f ∧ transactions s = [.read s.pc, x] ∧ stateAtFault s = { s with pc := s.pc + 1 } := by
  obtain ⟨hstep, htrans⟩ := step_and_transactions_of_op_dataAccess he hx h
  exact ⟨hstep.trans hf, htrans, by simp only [stateAtFault, fetchInstr_of_op h he]⟩

end Sys2Proof.Machine
end

section
/-! PROOF. The statement about the high-page forms (spec/46_ld_highpage_c.md). -/

namespace Sys2Proof.Machine

/-- Settles O22: one store and one load at an address no device answers, which the fetch of the opcode does not move. -/
theorem highPageFormsAlwaysFault : Obligations.HighPageFormsAlwaysFault := by
  unfold Obligations.HighPageFormsAlwaysFault
  intro s
  refine ⟨highPageC_toNat s, exec_ldMemCA s, exec_ldAMemC s, ?_, ?_, opcodeReadFaultEnds s⟩
  · exact step_of_op_fault opcodeEntry_ldMemCA (dataAccess_ldMemCA s)
      (by rw [exec_ldMemCA, State.highPageC_withPc])
  · exact step_of_op_fault opcodeEntry_ldAMemC (dataAccess_ldAMemC s)
      (by rw [exec_ldAMemC, State.highPageC_withPc])

end Sys2Proof.Machine
end

section
/-! PROOF. The rules the statement about `DecodeFault` rests on: which faults the Bus can raise, and where the fault of a
fetch, an instruction or a step comes from. -/

namespace Sys2Proof.Machine

/-! ## The faults of a Bus transaction (R42, R43, R55, R56) -/

/-- A ROM read beyond the image faults under `error`, and under `wrap` when the image is empty. -/
theorem romOob_fault {c : Cartridge} {addr : Addr} {bank : BitVec 7} {phys : BitVec 21} {f : Fault}
    (h : romOob c addr bank phys = .fault f) :
    f = .romOutOfRange addr bank phys ∧ (c.oob = .error ∨ c.oob = .wrap ∧ c.len = 0) := by
  unfold romOob at h
  split at h
  · injection h with h; exact ⟨h.symm, .inl ‹_›⟩
  · split at h
    · injection h with h; exact ⟨h.symm, .inr ⟨‹_›, ‹_›⟩⟩
    · cases h
  · cases h

/-- Everything a Bus read can fault with: no device answers, or the image ends before the index and the policy says so. -/
theorem busRead_fault {s : State} {addr : Addr} {f : Fault} (h : busRead s addr = .fault f) :
    (¬Mapped addr ∧ f = .busUnmapped addr .read) ∨
      ∃ bank, InCart addr ∧ activeRomBank s.mbc1 addr = .ok bank ∧ s.cart.len ≤ (physIndex bank addr).toNat ∧
        f = .romOutOfRange addr bank (physIndex bank addr) ∧
        (s.cart.oob = .error ∨ s.cart.oob = .wrap ∧ s.cart.len = 0) := by
  by_cases hc : InCart addr
  · obtain ⟨bank, hb⟩ := activeRomBank_of_inCart s.mbc1 hc
    rw [busRead_of_inCart hc] at h
    simp only [romRead, hb] at h
    split at h
    · cases h
    · obtain ⟨hf, hoob⟩ := romOob_fault h
      exact .inr ⟨bank, hc, hb, Nat.le_of_not_lt ‹_›, hf, hoob⟩
  · by_cases hw : InWram addr
    · rw [busRead_of_inWram hw] at h
      cases h
    · have hun : ¬Mapped addr := not_or.mpr ⟨hc, hw⟩
      rw [busRead_of_not_mapped s hun] at h
      injection h with h
      exact .inl ⟨hun, h.symm⟩

theorem busRead_ne_decodeFault (s : State) (addr : Addr) (op : Byte) (p : Addr) :
    busRead s addr ≠ .fault (.decodeFault op p) := by
  intro h
  obtain ⟨-, hf⟩ | ⟨_, -, -, -, hf, -⟩ := busRead_fault h <;> cases hf

/-- A Bus transaction never raises the decoder's fault. -/
theorem perform_ne_decodeFault (s : State) (x : Transaction) (op : Byte) (p : Addr) :
    perform s x ≠ .fault (.decodeFault op p) := by
  intro h
  cases x with
  | read addr =>
    simp only [perform] at h
    split at h
    · cases h
    · injection h with h
      subst h
      exact busRead_ne_decodeFault s addr op p ‹_›
  | write addr v =>
    obtain ⟨-, -, hf⟩ := busWrite_fault h
    cases hf

/-- An instruction's only fault is its data transaction's, so it is never the decoder's. -/
theorem exec_ne_decodeFault (i : Instr) (s : State) (op : Byte) (p : Addr) : exec i s ≠ .fault (.decodeFault op p) := by
  intro h
  obtain ⟨x, -, hx⟩ := exec_fault h
  exact perform_ne_decodeFault s x op p hx

/-! ## An unimplemented opcode (R91, R97) -/

theorem fetchInstr_of_unimplemented {s : State} {op : Byte} (h : busRead s s.pc = .ok op) (he : opcodeEntry op = none) :
    fetchInstr s = .raised (.decodeFault op s.pc) { s with pc := s.pc + 1 } := by
  simp only [fetchInstr, fetch8_of_ok h, he, nextPc]

theorem transactions_of_unimplemented {s : State} {op : Byte} (h : busRead s s.pc = .ok op)
    (he : opcodeEntry op = none) : transactions s = [.read s.pc] := by
  simp only [transactions, h, he]

/-! ## Where a fault comes from (R209) -/

/-- A fetch faults by one of its reads, or because the byte read at `pc` is an unimplemented opcode. -/
theorem fetchInstr_raised {s t : State} {f : Fault} (h : fetchInstr s = .raised f t) :
    (∃ addr, busRead s addr = .fault f) ∨
      ∃ op, busRead s s.pc = .ok op ∧ opcodeEntry op = none ∧ f = .decodeFault op s.pc := by
  obtain ⟨f, hf, e⟩ | ⟨op, h0, ⟨he, e⟩ | ⟨i, -, e⟩ | ⟨mk, -, ⟨f, hf, e⟩ | ⟨n, -, e⟩⟩ |
      ⟨mk, -, ⟨f, hf, e⟩ | ⟨lo, -, ⟨f, hf, e⟩ | ⟨hi, -, e⟩⟩⟩⟩ := fetchInstr_cases s <;>
    rw [e] at h <;> cases h
  · exact .inl ⟨_, hf⟩
  · exact .inr ⟨op, h0, he, rfl⟩
  · exact .inl ⟨_, hf⟩
  · exact .inl ⟨_, hf⟩
  · exact .inl ⟨_, hf⟩

/-- A step faults in its fetch, or in the instruction the fetch answers. -/
theorem step_fault {s : State} {f : Fault} (h : step s = .fault f) :
    (∃ t, fetchInstr s = .raised f t) ∨ ∃ i t, fetchInstr s = .got i t ∧ exec i t = .fault f := by
  unfold step at h
  split at h
  · exact .inr ⟨_, _, ‹_›, h⟩
  · injection h with h
    subst h
    exact .inl ⟨_, ‹_›⟩

/-- A step that ends in the decoder's fault ended in its fetch, at an unimplemented opcode read at `pc`. -/
theorem step_decodeFault {s : State} {op : Byte} {p : Addr} (h : step s = .fault (.decodeFault op p)) :
    busRead s s.pc = .ok op ∧ opcodeEntry op = none ∧ p = s.pc := by
  obtain ⟨t, hraised⟩ | ⟨i, t, -, hexec⟩ := step_fault h
  · obtain ⟨addr, hread⟩ | ⟨op', hop, he, hf⟩ := fetchInstr_raised hraised
    · exact absurd hread (busRead_ne_decodeFault s addr op p)
    · injection hf with hop' hp
      subst hop'
      exact ⟨hop, he, hp⟩
  · exact absurd hexec (exec_ne_decodeFault i t op p)

end Sys2Proof.Machine
end

section
/-! PROOF. The statement about `DecodeFault` (spec/60_exceptions.md R201). -/

namespace Sys2Proof.Machine

/-- Settles O40: no Bus transaction raises `DecodeFault`, so only the fetch does, and only at an opcode without a table
entry, after its one read. -/
theorem decodeFaultExactlyOnUnimplementedOpcodes : Obligations.DecodeFaultExactlyOnUnimplementedOpcodes := by
  unfold Obligations.DecodeFaultExactlyOnUnimplementedOpcodes
  refine ⟨fun s op p => ⟨step_decodeFault, ?_⟩, fun s op => transactions_of_unimplemented, exec_ne_decodeFault⟩
  rintro ⟨hop, he, rfl⟩
  exact (step_of_fetchInstr_raised (fetchInstr_of_unimplemented hop he)).1

end Sys2Proof.Machine
end

section
/-! PROOF. The classes of instructions: every instruction belongs to one, and each class has one place in the opcode map. -/

namespace Sys2Proof

/-! ## The classes (R84) -/

/-- `i` belongs to one of the register-indexed classes, or is one of the forms without a register field. -/
def Instr.InClass (i : Instr) : Prop :=
  (∃ dst r, i = .ldRR dst r) ∨ (∃ dst n, i = .ldRN dst n) ∨ (∃ r, i = .ldRMemHL r) ∨ (∃ r, i = .ldMemHLR r) ∨
    (∃ n, i = .ldMemHLN n) ∨ i ∈ [Instr.ldMemBCA, .ldAMemBC, .ldMemDEA, .ldAMemDE, .ldMemCA, .ldAMemC] ∨
    ∃ nn, i = .jp nn ∨ i = .ldMemNNA nn ∨ i = .ldAMemNN nn

theorem Instr.inClass_ldRR (dst r : Reg) : (Instr.ldRR dst r).InClass := .inl ⟨dst, r, rfl⟩

theorem Instr.inClass_ldRN (dst : Reg) (n : Byte) : (Instr.ldRN dst n).InClass := .inr (.inl ⟨dst, n, rfl⟩)

theorem Instr.inClass_ldRMemHL (r : Reg) : (Instr.ldRMemHL r).InClass := .inr (.inr (.inl ⟨r, rfl⟩))

theorem Instr.inClass_ldMemHLR (r : Reg) : (Instr.ldMemHLR r).InClass := .inr (.inr (.inr (.inl ⟨r, rfl⟩)))

theorem Instr.inClass_of_mem {i : Instr}
    (h : i ∈ [Instr.ldMemBCA, .ldAMemBC, .ldMemDEA, .ldAMemDE, .ldMemCA, .ldAMemC]) : i.InClass :=
  .inr (.inr (.inr (.inr (.inr (.inl h)))))

theorem Instr.inClass_of_word {i : Instr} {nn : Addr} (h : i = .jp nn ∨ i = .ldMemNNA nn ∨ i = .ldAMemNN nn) :
    i.InClass :=
  .inr (.inr (.inr (.inr (.inr (.inr ⟨nn, h⟩)))))

/-- The classes are all the instructions. -/
theorem Instr.inClass : ∀ i : Instr, i.InClass
  | .ldBB => inClass_ldRR .b .b | .ldBC => inClass_ldRR .b .c | .ldBD => inClass_ldRR .b .d
  | .ldBE => inClass_ldRR .b .e | .ldBH => inClass_ldRR .b .h | .ldBL => inClass_ldRR .b .l
  | .ldBA => inClass_ldRR .b .a | .ldCB => inClass_ldRR .c .b | .ldCC => inClass_ldRR .c .c
  | .ldCD => inClass_ldRR .c .d | .ldCE => inClass_ldRR .c .e | .ldCH => inClass_ldRR .c .h
  | .ldCL => inClass_ldRR .c .l | .ldCA => inClass_ldRR .c .a | .ldDB => inClass_ldRR .d .b
  | .ldDC => inClass_ldRR .d .c | .ldDD => inClass_ldRR .d .d | .ldDE => inClass_ldRR .d .e
  | .ldDH => inClass_ldRR .d .h | .ldDL => inClass_ldRR .d .l | .ldDA => inClass_ldRR .d .a
  | .ldEB => inClass_ldRR .e .b | .ldEC => inClass_ldRR .e .c | .ldED => inClass_ldRR .e .d
  | .ldEE => inClass_ldRR .e .e | .ldEH => inClass_ldRR .e .h | .ldEL => inClass_ldRR .e .l
  | .ldEA => inClass_ldRR .e .a | .ldHB => inClass_ldRR .h .b | .ldHC => inClass_ldRR .h .c
  | .ldHD => inClass_ldRR .h .d | .ldHE => inClass_ldRR .h .e | .ldHH => inClass_ldRR .h .h
  | .ldHL => inClass_ldRR .h .l | .ldHA => inClass_ldRR .h .a | .ldLB => inClass_ldRR .l .b
  | .ldLC => inClass_ldRR .l .c | .ldLD => inClass_ldRR .l .d | .ldLE => inClass_ldRR .l .e
  | .ldLH => inClass_ldRR .l .h | .ldLL => inClass_ldRR .l .l | .ldLA => inClass_ldRR .l .a
  | .ldAB => inClass_ldRR .a .b | .ldAC => inClass_ldRR .a .c | .ldAD => inClass_ldRR .a .d
  | .ldAE => inClass_ldRR .a .e | .ldAH => inClass_ldRR .a .h | .ldAL => inClass_ldRR .a .l
  | .ldAA => inClass_ldRR .a .a
  | .ldBN n => inClass_ldRN .b n | .ldCN n => inClass_ldRN .c n | .ldDN n => inClass_ldRN .d n
  | .ldEN n => inClass_ldRN .e n | .ldHN n => inClass_ldRN .h n | .ldLN n => inClass_ldRN .l n
  | .ldAN n => inClass_ldRN .a n
  | .ldBMemHL => inClass_ldRMemHL .b | .ldCMemHL => inClass_ldRMemHL .c | .ldDMemHL => inClass_ldRMemHL .d
  | .ldEMemHL => inClass_ldRMemHL .e | .ldHMemHL => inClass_ldRMemHL .h | .ldLMemHL => inClass_ldRMemHL .l
  | .ldAMemHL => inClass_ldRMemHL .a
  | .ldMemHLB => inClass_ldMemHLR .b | .ldMemHLC => inClass_ldMemHLR .c | .ldMemHLD => inClass_ldMemHLR .d
  | .ldMemHLE => inClass_ldMemHLR .e | .ldMemHLH => inClass_ldMemHLR .h | .ldMemHLL => inClass_ldMemHLR .l
  | .ldMemHLA => inClass_ldMemHLR .a
  | .ldMemHLN n => .inr (.inr (.inr (.inr (.inl ⟨n, rfl⟩))))
  | .ldMemBCA | .ldAMemBC | .ldMemDEA | .ldAMemDE | .ldMemCA | .ldAMemC => inClass_of_mem (by decide)
  | .jp _ => inClass_of_word (.inl rfl)
  | .ldMemNNA _ => inClass_of_word (.inr (.inl rfl))
  | .ldAMemNN _ => inClass_of_word (.inr (.inr rfl))

/-- Case analysis by class, the forms without a register field one by one: what holds of each class holds of every
instruction. -/
theorem Instr.class_induction {P : Instr → Prop} (i : Instr) (ldRR : ∀ dst r, P (.ldRR dst r))
    (ldRN : ∀ dst n, P (.ldRN dst n)) (ldRMemHL : ∀ r, P (.ldRMemHL r)) (ldMemHLR : ∀ r, P (.ldMemHLR r))
    (ldMemHLN : ∀ n, P (.ldMemHLN n)) (ldMemBCA : P .ldMemBCA) (ldAMemBC : P .ldAMemBC) (ldMemDEA : P .ldMemDEA)
    (ldAMemDE : P .ldAMemDE) (ldMemCA : P .ldMemCA) (ldAMemC : P .ldAMemC) (jp : ∀ nn, P (.jp nn))
    (ldMemNNA : ∀ nn, P (.ldMemNNA nn)) (ldAMemNN : ∀ nn, P (.ldAMemNN nn)) : P i := by
  obtain ⟨dst, r, rfl⟩ | ⟨dst, n, rfl⟩ | ⟨r, rfl⟩ | ⟨r, rfl⟩ | ⟨n, rfl⟩ | hi | ⟨nn, rfl | rfl | rfl⟩ := i.inClass
  · exact ldRR dst r
  · exact ldRN dst n
  · exact ldRMemHL r
  · exact ldMemHLR r
  · exact ldMemHLN n
  · simp only [List.mem_cons, List.not_mem_nil, or_false] at hi
    obtain rfl | rfl | rfl | rfl | rfl | rfl := hi
    exacts [ldMemBCA, ldAMemBC, ldMemDEA, ldAMemDE, ldMemCA, ldAMemC]
  · exact jp nn
  · exact ldMemNNA nn
  · exact ldAMemNN nn

/-! ## Each class in the opcode map (R89, R90) -/

/-- The entry of an instruction's own opcode byte makes the instruction: as it is, from `n`, or from `nn`. -/
theorem opcodeEntry_opcode (i : Instr) :
    opcodeEntry i.opcode = some (.op i) ∨ (∃ mk n, i = mk n ∧ opcodeEntry i.opcode = some (.opN mk)) ∨
      ∃ mk nn, i = mk nn ∧ opcodeEntry i.opcode = some (.opNN mk) := by
  induction i using Instr.class_induction with
  | ldRR dst r => exact .inl (Machine.opcodeEntry_ldRR dst r)
  | ldRN dst n => exact .inr (.inl ⟨_, n, rfl, Machine.opcodeEntry_ldRN dst n⟩)
  | ldRMemHL r => exact .inl (Machine.opcodeEntry_ldRMemHL r)
  | ldMemHLR r => exact .inl (Machine.opcodeEntry_ldMemHLR r)
  | ldMemHLN n => exact .inr (.inl ⟨_, n, rfl, Machine.opcodeEntry_ldMemHLN n⟩)
  | ldMemBCA => exact .inl rfl
  | ldAMemBC => exact .inl rfl
  | ldMemDEA => exact .inl rfl
  | ldAMemDE => exact .inl rfl
  | ldMemCA => exact .inl Machine.opcodeEntry_ldMemCA
  | ldAMemC => exact .inl Machine.opcodeEntry_ldAMemC
  | jp nn => exact .inr (.inr ⟨_, nn, rfl, Machine.opcodeEntry_jp nn⟩)
  | ldMemNNA nn => exact .inr (.inr ⟨_, nn, rfl, Machine.opcodeEntry_ldMemNNA nn⟩)
  | ldAMemNN nn => exact .inr (.inr ⟨_, nn, rfl, Machine.opcodeEntry_ldAMemNN nn⟩)

/-- An instruction is as its entry's format says: its encoding and what its opcode byte selects (R81 to R83). -/
theorem encode_cases (i : Instr) :
    (opcodeEntry i.opcode = some (.op i) ∧ encode i = [i.opcode]) ∨
      (∃ mk n, i = mk n ∧ opcodeEntry i.opcode = some (.opN mk) ∧ encode i = [i.opcode, n]) ∨
      ∃ mk nn, i = mk nn ∧ opcodeEntry i.opcode = some (.opNN mk) ∧ encode i = [i.opcode, lowByte nn, highByte nn] := by
  obtain he | ⟨mk, n, hi, he⟩ | ⟨mk, nn, hi, he⟩ := opcodeEntry_opcode i
  · exact .inl ⟨he, opcodeEntry_fitsOpcode he⟩
  · exact .inr (.inl ⟨mk, n, hi, he, hi ▸ opcodeEntry_fitsOpcode he n⟩)
  · exact .inr (.inr ⟨mk, nn, hi, he, hi ▸ opcodeEntry_fitsOpcode he nn⟩)

/-- The longest instruction has three bytes (R80). -/
theorem Instr.length_le_three (i : Instr) : i.length ≤ 3 := by
  rw [← length_encode]
  obtain ⟨-, h⟩ | ⟨_, _, -, -, h⟩ | ⟨_, _, -, -, h⟩ := encode_cases i <;> simp [h]

/-- Only the jumps have the jump's opcode byte. -/
theorem eq_jp_of_opcode_eq {i : Instr} {nn : Addr} (h : i.opcode = (Instr.jp nn).opcode) : ∃ nn', i = .jp nn' := by
  have hjp : opcodeEntry i.opcode = some (.opNN .jp) := h ▸ Machine.opcodeEntry_jp nn
  obtain he | ⟨mk, n, -, he⟩ | ⟨mk, nn', hi, he⟩ := opcodeEntry_opcode i <;> rw [hjp] at he <;> cases he
  exact ⟨nn', hi⟩

/-! ## The decoder, by the format of the opcode (R80 to R83) -/

theorem decode_of_op {op : Byte} {i : Instr} (h : opcodeEntry op = some (.op i)) (rest : List Byte) :
    decode (op :: rest) = .instr i rest := by
  simp only [decode, h]

theorem decode_of_opN {op : Byte} {mk : Byte → Instr} (h : opcodeEntry op = some (.opN mk)) (n : Byte)
    (rest : List Byte) : decode (op :: n :: rest) = .instr (mk n) rest := by
  simp only [decode, h]

/-- Everything the decoder can accept. -/
theorem decode_instr {bytes rest : List Byte} {i : Instr} (h : decode bytes = .instr i rest) :
    (∃ op, bytes = op :: rest ∧ opcodeEntry op = some (.op i)) ∨
      (∃ op mk n, bytes = op :: n :: rest ∧ opcodeEntry op = some (.opN mk) ∧ i = mk n) ∨
      ∃ op mk lo hi, bytes = op :: lo :: hi :: rest ∧ opcodeEntry op = some (.opNN mk) ∧ i = mk (wordOfBytes lo hi) := by
  unfold decode at h
  split at h
  · cases h
  · rename_i op tail
    split at h <;> cases h
    · exact .inl ⟨op, rfl, ‹_›⟩
    · exact .inr (.inl ⟨op, _, _, rfl, ‹_›, rfl⟩)
    · exact .inr (.inr ⟨op, _, _, _, rfl, ‹_›, rfl⟩)

theorem decode_encode (i : Instr) (rest : List Byte) : decode (encode i ++ rest) = .instr i rest := by
  obtain ⟨he, hbytes⟩ | ⟨mk, n, rfl, he, hbytes⟩ | ⟨mk, nn, rfl, he, hbytes⟩ := encode_cases i <;> rw [hbytes]
  · exact decode_of_op he rest
  · exact decode_of_opN he n rest
  · rw [List.cons_append, List.cons_append, List.cons_append, List.nil_append, decode_of_opNN he,
      wordOfBytes_lowByte_highByte]

theorem eq_encode_append_of_decode {bytes rest : List Byte} {i : Instr} (h : decode bytes = .instr i rest) :
    bytes = encode i ++ rest := by
  obtain ⟨op, rfl, he⟩ | ⟨op, mk, n, rfl, he, rfl⟩ | ⟨op, mk, lo, hi, rfl, he, rfl⟩ := decode_instr h
  · rw [show encode i = [op] from opcodeEntry_fitsOpcode he]
    rfl
  · rw [show encode (mk n) = [op, n] from opcodeEntry_fitsOpcode he n]
    rfl
  · rw [show encode (mk (wordOfBytes lo hi)) = _ from opcodeEntry_fitsOpcode he _, lowByte_wordOfBytes,
      highByte_wordOfBytes]
    rfl

/-! ## The assembler text of each class (R95) and its bit fields (R84) -/

@[simp] theorem source_ldRR (dst r : Reg) : (Instr.ldRR dst r).source = .ld (.reg dst) (.reg r) := by
  cases dst <;> cases r <;> rfl

@[simp] theorem source_ldRN (dst : Reg) (n : Byte) : (Instr.ldRN dst n).source = .ld (.reg dst) (.imm n.toNat) := by
  cases dst <;> rfl

@[simp] theorem source_ldRMemHL (dst : Reg) : (Instr.ldRMemHL dst).source = .ld (.reg dst) .memHL := by
  cases dst <;> rfl

@[simp] theorem source_ldMemHLR (r : Reg) : (Instr.ldMemHLR r).source = .ld .memHL (.reg r) := by
  cases r <;> rfl

theorem byteLiteral_toNat (n : Byte) : byteLiteral n.toNat = true := decide_eq_true n.isLt

theorem wordLiteral_toNat (nn : Addr) : wordLiteral nn.toNat = true := decide_eq_true nn.isLt

/-- Every value an operand can hold is a legal literal (R86, R87). -/
theorem Instr.wf_eq_true (i : Instr) : i.wf = true := by
  unfold Instr.wf
  induction i using Instr.class_induction with
  | ldRR dst r => rw [source_ldRR]; rfl
  | ldRN dst n => rw [source_ldRN]; exact byteLiteral_toNat n
  | ldRMemHL r => rw [source_ldRMemHL]; rfl
  | ldMemHLR r => rw [source_ldMemHLR]; rfl
  | ldMemHLN n => exact byteLiteral_toNat n
  | ldMemBCA => rfl
  | ldAMemBC => rfl
  | ldMemDEA => rfl
  | ldAMemDE => rfl
  | ldMemCA => rfl
  | ldAMemC => rfl
  | jp nn => exact wordLiteral_toNat nn
  | ldMemNNA nn => exact wordLiteral_toNat nn
  | ldAMemNN nn => exact wordLiteral_toNat nn

end Sys2Proof
end

section
/-! PROOF. The two round trips of the decoder and the encoder. -/

namespace Sys2Proof.Machine

/-- Settles O33: an instruction's own opcode byte selects the entry that makes it again from its operand bytes. -/
theorem decodeInvertsEncode : Obligations.DecodeInvertsEncode := by
  unfold Obligations.DecodeInvertsEncode
  exact fun i rest => ⟨i.wf_eq_true, decode_encode i rest⟩

/-- Settles O34: every entry of the opcode map makes instructions that encode to its opcode byte and operand bytes. -/
theorem encodeInvertsDecode : Obligations.EncodeInvertsDecode := by
  unfold Obligations.EncodeInvertsDecode
  exact fun bytes rest i => eq_encode_append_of_decode

end Sys2Proof.Machine
end

section
/-! PROOF. What an instruction answers, as one shared operation for all states; what it costs; and which fields of the state
it never looks at. -/

namespace Sys2Proof.Machine

/-! ## Values that come from the registers -/

/-- `g` depends on the seven registers only. -/
def FromRegs {α : Type} (g : State → α) : Prop := ∀ s t : State, (∀ r, s.reg r = t.reg r) → g s = g t

theorem fromRegs_const {α : Type} (x : α) : FromRegs fun _ => x := fun _ _ _ => rfl

theorem fromRegs_reg (r : Reg) : FromRegs fun s => s.reg r := fun _ _ h => h r

theorem fromRegs_bc : FromRegs State.bc := fun _ _ h => congrArg₂ compound (h .b) (h .c)

theorem fromRegs_de : FromRegs State.de := fun _ _ h => congrArg₂ compound (h .d) (h .e)

theorem fromRegs_hl : FromRegs State.hl := fun _ _ h => congrArg₂ compound (h .h) (h .l)

theorem fromRegs_highPageC : FromRegs State.highPageC := fun _ _ h =>
  congrArg (fun v : Byte => (0xFF00 : Addr) + v.setWidth 16) (h .c)

/-! ## Each instruction as one operation for all states, with its cost (R258) -/

theorem length_of_op {i : Instr} (h : opcodeEntry i.opcode = some (.op i)) : i.length = 1 := by
  rw [← length_encode, show encode i = _ from opcodeEntry_fitsOpcode h]
  rfl

theorem length_of_opN {mk : Byte → Instr} {n : Byte} (h : opcodeEntry (mk n).opcode = some (.opN mk)) :
    (mk n).length = 2 := by
  rw [← length_encode, show encode (mk n) = _ from opcodeEntry_fitsOpcode h n]
  rfl

/-- The operation `i` is in every state, its operands given by the registers. A load or a store costs its fetches and its
data access; a copy and an immediate load cost their fetches. -/
inductive Effect (i : Instr) : Prop
  | copy (dst r : Reg) (hlen : i.length = 1) (hdata : ∀ s, dataAccess i s = none)
      (hexec : ∀ s, exec i s = copyReg dst r s)
  | imm (dst : Reg) (n : Byte) (hlen : i.length = 2) (hdata : ∀ s, dataAccess i s = none)
      (hexec : ∀ s, exec i s = loadImm dst n s)
  | jump (nn : Addr) (hi : i = .jp nn)
  | load (dst : Reg) (addr : State → Addr) (cost : BitVec 8) (hcost : cost.toNat = i.length + 1) (haddr : FromRegs addr)
      (hdata : ∀ s, dataAccess i s = some (.read (addr s))) (hexec : ∀ s, exec i s = loadByte dst (addr s) cost s)
  | store (addr : State → Addr) (v : State → Byte) (cost : BitVec 8) (hcost : cost.toNat = i.length + 1)
      (haddr : FromRegs addr) (hv : FromRegs v) (hdata : ∀ s, dataAccess i s = some (.write (addr s) (v s)))
      (hexec : ∀ s, exec i s = storeByte (addr s) (v s) cost s)

theorem Effect.of_loadHL (r : Reg) : Effect (.ldRMemHL r) :=
  .load r State.hl 2 (by rw [length_of_op (opcodeEntry_ldRMemHL r)]; rfl) fromRegs_hl (dataAccess_ldRMemHL r)
    (exec_ldRMemHL r)

theorem Effect.of_storeHL (r : Reg) : Effect (.ldMemHLR r) :=
  .store State.hl (fun s => s.reg r) 2 (by rw [length_of_op (opcodeEntry_ldMemHLR r)]; rfl) fromRegs_hl
    (fromRegs_reg r) (dataAccess_ldMemHLR r) (exec_ldMemHLR r)

/-- A load of `a` with its address, read off the definitions. -/
theorem Effect.of_loadA {i : Instr} {addr : State → Addr} {cost : BitVec 8} (haddr : FromRegs addr)
    (hcost : cost.toNat = i.length + 1) (hdata : ∀ s, dataAccess i s = some (.read (addr s)))
    (hexec : ∀ s, exec i s = loadByte .a (addr s) cost s) : Effect i :=
  .load .a addr cost hcost haddr hdata hexec

/-- A store of `a` with its address, read off the definitions. -/
theorem Effect.of_storeA {i : Instr} {addr : State → Addr} {cost : BitVec 8} (haddr : FromRegs addr)
    (hcost : cost.toNat = i.length + 1) (hdata : ∀ s, dataAccess i s = some (.write (addr s) (s.reg .a)))
    (hexec : ∀ s, exec i s = storeByte (addr s) (s.reg .a) cost s) : Effect i :=
  .store addr (fun s => s.reg .a) cost hcost haddr (fromRegs_reg .a) hdata hexec

/-- The cases of `exec_cases`, with the operation and its operands fixed for all states. -/
theorem effect (i : Instr) : Effect i := by
  induction i using Instr.class_induction with
  | ldRR dst r => exact .copy dst r (length_of_op (opcodeEntry_ldRR dst r)) (dataAccess_ldRR dst r) (exec_ldRR dst r)
  | ldRN dst n => exact .imm dst n (length_of_opN (opcodeEntry_ldRN dst n)) (dataAccess_ldRN dst n) (exec_ldRN dst n)
  | ldRMemHL r => exact .of_loadHL r
  | ldMemHLR r => exact .of_storeHL r
  | ldMemHLN n =>
    exact .store State.hl (fun _ => n) 3 rfl fromRegs_hl (fromRegs_const n) (dataAccess_ldMemHLN n) (exec_ldMemHLN n)
  | ldMemBCA => exact .of_storeA (cost := 2) fromRegs_bc rfl (fun _ => rfl) fun _ => rfl
  | ldAMemBC => exact .of_loadA (cost := 2) fromRegs_bc rfl (fun _ => rfl) fun _ => rfl
  | ldMemDEA => exact .of_storeA (cost := 2) fromRegs_de rfl (fun _ => rfl) fun _ => rfl
  | ldAMemDE => exact .of_loadA (cost := 2) fromRegs_de rfl (fun _ => rfl) fun _ => rfl
  | ldMemCA => exact .of_storeA (cost := 2) fromRegs_highPageC rfl (fun _ => rfl) fun _ => rfl
  | ldAMemC => exact .of_loadA (cost := 2) fromRegs_highPageC rfl (fun _ => rfl) fun _ => rfl
  | jp nn => exact .jump nn rfl
  | ldMemNNA nn => exact .of_storeA (cost := 4) (fromRegs_const nn) rfl (fun _ => rfl) fun _ => rfl
  | ldAMemNN nn => exact .of_loadA (cost := 4) (fromRegs_const nn) rfl (fun _ => rfl) fun _ => rfl

/-- The cost of a completed instruction but the jump: one for each fetched byte and one for the data access (R258). -/
theorem exec_cycles {i : Instr} {s t : State} (h : exec i s = .next t) (hi : ∀ nn, i ≠ .jp nn) :
    t.cycles.toNat = i.length + (dataAccess i s).toList.length := by
  cases effect i with
  | copy dst r hlen hdata hexec =>
    obtain rfl := copyReg_next ((hexec s).symm.trans h)
    rw [hlen, hdata]
    rfl
  | imm dst n hlen hdata hexec =>
    obtain rfl := loadImm_next ((hexec s).symm.trans h)
    rw [hlen, hdata]
    rfl
  | jump nn hjp => exact absurd hjp (hi nn)
  | load dst addr cost hcost _ hdata hexec =>
    obtain ⟨_, -, rfl⟩ := loadByte_next ((hexec s).symm.trans h)
    rw [hdata]
    exact hcost
  | store addr v cost hcost _ _ hdata hexec =>
    obtain ⟨_, -, rfl⟩ := storeByte_next ((hexec s).symm.trans h)
    rw [hdata]
    exact hcost

theorem exec_jp_cycles {nn : Addr} {s t : State} (h : exec (.jp nn) s = .next t) : t.cycles = 4 := by
  obtain rfl := jumpTo_next (show jumpTo nn s = .next t from h)
  rfl

/-- The costs of the table of R258 are at most four. -/
theorem exec_costLegal {i : Instr} {s t : State} (h : exec i s = .next t) : t.CostLegal := by
  by_cases hjp : ∃ nn, i = .jp nn
  · obtain ⟨nn, rfl⟩ := hjp
    rw [State.CostLegal, exec_jp_cycles h]
    decide
  · have hcost := exec_cycles h fun nn hi => hjp ⟨nn, hi⟩
    have hlen := i.length_le_three
    have hdata : (dataAccess i s).toList.length ≤ 1 := by cases dataAccess i s <;> simp
    unfold State.CostLegal
    omega

/-! ## The fields nothing looks at: `f` (R17), `ram_gate` (R19) and the last cost (log 8) -/

/-- `s` with other values in the three fields. -/
def State.withHidden (s : State) (v : Byte) (gate : Bool) (cost : BitVec 8) : State :=
  { s with f := v, mbc1 := { s.mbc1 with ramGate := gate }, cycles := cost }

/-- The outcome of a step or an instruction from `s.withHidden v gate _`, beside its outcome from `s`: the same fault, or the
same next state but for `f`, which stays `v`, and `ram_gate`, which differs only if it did before. -/
def SameButHidden (s : State) (v : Byte) (gate : Bool) (o o' : Host.Outcome State Fault Refusal) : Prop :=
  (∀ f, o = .fault f → o' = .fault f) ∧
    ∀ t, o = .next t → ∃ gate', o' = .next (t.withHidden v gate' t.cycles) ∧
      (gate = s.mbc1.ramGate → gate' = t.mbc1.ramGate)

section withHidden
variable (s : State) (v : Byte) (gate : Bool) (cost : BitVec 8)

@[simp] theorem State.withHidden_pc : (s.withHidden v gate cost).pc = s.pc := rfl

@[simp] theorem State.reg_withHidden (r : Reg) : (s.withHidden v gate cost).reg r = s.reg r := by cases r <;> rfl

@[simp] theorem busRead_withHidden (addr : Addr) : busRead (s.withHidden v gate cost) addr = busRead s addr := rfl

theorem State.setReg_withHidden (r : Reg) (w : Byte) :
    (s.withHidden v gate cost).setReg r w = (s.setReg r w).withHidden v gate cost := by
  cases r <;> rfl

/-- A read of the registers does not see the three fields. -/
theorem FromRegs.withHidden {α : Type} {g : State → α} (h : FromRegs g) : g (s.withHidden v gate cost) = g s :=
  h _ _ (State.reg_withHidden s v gate cost)

/-- A Bus write does the same whatever the three fields hold; one to the `ram_gate` region sets that field anew. -/
theorem busWrite_withHidden {t : State} {addr : Addr} {w : Byte} (h : busWrite s addr w = .ok t) :
    ∃ gate', busWrite (s.withHidden v gate cost) addr w = .ok (t.withHidden v gate' cost) ∧
      (gate = s.mbc1.ramGate → gate' = t.mbc1.ramGate) := by
  obtain ⟨hc, m, hm, rfl⟩ | ⟨hw, rfl⟩ := busWrite_ok h
  · have hwrite {m'} := busWrite_of_inCart (s := s.withHidden v gate cost) (m := m') (v := w) hc
    obtain ⟨ha, rfl⟩ | ⟨hlo, hhi, rfl⟩ | ⟨hlo, hhi, rfl⟩ | ⟨hlo, hhi, rfl⟩ := mbc1Write_ok hm
    · exact ⟨ramGateOf w, hwrite (mbc1Write_ramGate_region _ w ha), fun _ => rfl⟩
    · exact ⟨gate, hwrite (mbc1Write_bank1_region _ w hlo hhi), id⟩
    · exact ⟨gate, hwrite (mbc1Write_bank2_region _ w hlo hhi), id⟩
    · exact ⟨gate, hwrite (mbc1Write_mode_region _ w hlo hhi), id⟩
  · exact ⟨gate, busWrite_of_inWram w hw, id⟩

/-- A completed register write beside the same write with the three fields changed. -/
theorem complete_setReg_withHidden (r : Reg) (w : Byte) (n : BitVec 8) :
    SameButHidden s v gate (complete (s.setReg r w) n) (complete ((s.withHidden v gate cost).setReg r w) n) := by
  refine ⟨fun f h => (nomatch h), fun t h => ⟨gate, ?_, ?_⟩⟩
  · rw [complete_eq_next.mp h, State.setReg_withHidden]
    rfl
  · rw [complete_eq_next.mp h]
    simp

theorem loadByte_withHidden (dst : Reg) (addr : Addr) (n : BitVec 8) :
    SameButHidden s v gate (loadByte dst addr n s) (loadByte dst addr n (s.withHidden v gate cost)) := by
  unfold loadByte
  rw [busRead_withHidden]
  rcases busRead s addr with w | f
  · exact complete_setReg_withHidden s v gate cost dst w n
  · exact ⟨fun _ => id, fun t h => (nomatch h)⟩

theorem storeByte_withHidden (addr : Addr) (w : Byte) (n : BitVec 8) :
    SameButHidden s v gate (storeByte addr w n s) (storeByte addr w n (s.withHidden v gate cost)) := by
  refine ⟨fun f h => ?_, fun t h => ?_⟩
  · obtain ⟨hc, hw, rfl⟩ := busWrite_fault (storeByte_fault h)
    exact storeByte_of_not_mapped (not_or.mpr ⟨hc, hw⟩)
  · obtain ⟨u, hwrite, rfl⟩ := storeByte_next h
    obtain ⟨gate', hwrite', hgate⟩ := busWrite_withHidden s v gate cost hwrite
    exact ⟨gate', storeByte_of_ok hwrite', hgate⟩

theorem exec_withHidden (i : Instr) :
    SameButHidden s v gate (exec i s) (exec i (s.withHidden v gate cost)) := by
  cases effect i with
  | copy dst r _ _ hexec =>
    rw [hexec, hexec, copyReg, copyReg, State.reg_withHidden]
    exact complete_setReg_withHidden s v gate cost dst (s.reg r) 1
  | imm dst n _ _ hexec =>
    rw [hexec, hexec]
    exact complete_setReg_withHidden s v gate cost dst n 2
  | jump nn hi =>
    subst hi
    refine ⟨fun f h => (nomatch h), fun t h => ⟨gate, ?_, ?_⟩⟩
    · obtain rfl := jumpTo_next (show jumpTo nn s = .next t from h)
      rfl
    · obtain rfl := jumpTo_next (show jumpTo nn s = .next t from h)
      exact id
  | load dst addr n _ haddr _ hexec =>
    rw [hexec, hexec, haddr.withHidden]
    exact loadByte_withHidden s v gate cost dst (addr s) n
  | store addr w n _ haddr hw _ hexec =>
    rw [hexec, hexec, haddr.withHidden, hw.withHidden]
    exact storeByte_withHidden s v gate cost (addr s) (w s) n

/-- A fetch's result with its state changed. -/
def Fetched.mapState {α : Type} (g : State → State) : Fetched α → Fetched α
  | .got x s => .got x (g s)
  | .raised f s => .raised f (g s)

theorem fetch8_withHidden :
    fetch8 (s.withHidden v gate cost) = (fetch8 s).mapState fun u => u.withHidden v gate cost := by
  unfold fetch8
  rw [State.withHidden_pc, busRead_withHidden]
  rcases busRead s s.pc with w | f <;> rfl

theorem fetch16_withHidden :
    fetch16 (s.withHidden v gate cost) = (fetch16 s).mapState fun u => u.withHidden v gate cost := by
  unfold fetch16
  rw [fetch8_withHidden]
  rcases fetch8 s with ⟨lo, u⟩ | ⟨f, u⟩
  · simp only [Fetched.mapState, fetch8_withHidden]
    rcases fetch8 u with ⟨hi, u'⟩ | ⟨f, u'⟩ <;> rfl
  · rfl

theorem fetchInstr_withHidden :
    fetchInstr (s.withHidden v gate cost) = (fetchInstr s).mapState fun u => u.withHidden v gate cost := by
  unfold fetchInstr
  rw [fetch8_withHidden]
  rcases fetch8 s with ⟨op, u⟩ | ⟨f, u⟩
  · simp only [Fetched.mapState]
    rcases opcodeEntry op with _ | i | mk | mk
    · rfl
    · rfl
    · simp only [fetch8_withHidden]
      rcases fetch8 u with ⟨n, u'⟩ | ⟨f, u'⟩ <;> rfl
    · simp only [fetch16_withHidden]
      rcases fetch16 u with ⟨nn, u'⟩ | ⟨f, u'⟩ <;> rfl
  · rfl

/-- No step looks at the three fields. -/
theorem step_withHidden : SameButHidden s v gate (step s) (step (s.withHidden v gate cost)) := by
  unfold step
  rw [fetchInstr_withHidden]
  rcases h : fetchInstr s with ⟨i, u⟩ | ⟨f, u⟩
  · obtain ⟨p, rfl⟩ := fetchInstr_got h
    exact exec_withHidden { s with pc := p } v gate cost i
  · exact ⟨fun _ => id, fun t ht => (nomatch ht)⟩

end withHidden

/-! ## What every step keeps -/

/-- No step is refused. -/
theorem step_ne_refused (s : State) (r : Refusal) : step s ≠ .refused r := by
  unfold step
  split
  · exact exec_ne_refused _ _ r
  · exact nofun

/-- No step writes `f` (R17). -/
theorem exec_keeps_f {i : Instr} {s t : State} (h : exec i s = .next t) : FlagsKept s t := by
  obtain ⟨r, v, _, rfl⟩ | ⟨_, -, rfl⟩ | ⟨_, _, _, _, -, -, rfl⟩ | ⟨_, _, _, -, rfl⟩ := exec_next h
  · exact s.setReg_f r v
  · rfl
  · rfl
  · rfl

theorem step_keeps_f {s t : State} (h : step s = .next t) : FlagsKept s t := by
  obtain ⟨i, -, hexec⟩ := step_next h
  exact (exec_keeps_f hexec).trans rfl

/-- `bank1` is only written with its 0 replaced by 1 (R49). -/
theorem exec_keeps_bank1Legal {i : Instr} {s t : State} (hs : s.Bank1Legal) (h : exec i s = .next t) :
    t.Bank1Legal := by
  obtain ⟨r, v, _, rfl⟩ | ⟨_, -, rfl⟩ | ⟨_, _, _, m, -, hm, rfl⟩ | ⟨_, _, _, -, rfl⟩ := exec_next h
  · simpa [State.Bank1Legal] using hs
  · exact hs
  · exact bank1_ne_zero_of_mbc1Write hm hs
  · exact hs

/-- A store into work RAM keeps its listing canonical, and nothing is stored in the image. -/
theorem exec_keeps_memoryCanonical {i : Instr} {s t : State} (hs : s.MemoryCanonical) (h : exec i s = .next t) :
    t.MemoryCanonical := by
  obtain ⟨hwram, hcart⟩ := hs
  refine ⟨?_, exec_keeps_cart h ▸ hcart⟩
  obtain ⟨r, v, _, rfl⟩ | ⟨_, -, rfl⟩ | ⟨_, _, _, m, -, -, rfl⟩ | ⟨_, _, _, hw, rfl⟩ := exec_next h
  · simpa using hwram
  · exact hwram
  · exact hwram
  · exact wramWrite_wf (wramIndex_lt hw) hwram

theorem exec_keeps_legal {i : Instr} {s t : State} (hs : s.Legal) (h : exec i s = .next t) : t.Legal := by
  obtain ⟨hmem, hbank, -⟩ := hs
  exact ⟨exec_keeps_memoryCanonical hmem h, exec_keeps_bank1Legal hbank h, exec_costLegal h⟩

end Sys2Proof.Machine
end

section
/-! PROOF. The statements about what every step keeps and what no step looks at. -/

namespace Sys2Proof.Machine

/-- Settles O7: no instruction writes `f`, a step beside one from another `f` by `step_withHidden`, and a run by induction
on its passes. -/
theorem flagRegisterIsNeverReadOrWritten : Obligations.FlagRegisterIsNeverReadOrWritten := by
  unfold Obligations.FlagRegisterIsNeverReadOrWritten
  refine ⟨fun s t => step_keeps_f, fun s v => ?_, fun aReset oob image n t h => ?_⟩
  · obtain ⟨hfault, hnext⟩ := step_withHidden s v s.mbc1.ramGate s.cycles
    refine ⟨fun t h => ?_, hfault⟩
    obtain ⟨gate', hstep, hgate⟩ := hnext t h
    obtain rfl := hgate rfl
    exact hstep
  · exact runLoop_stopped_keeps (P := fun u => u.f = 0x00) (fun u w hu hw => (step_keeps_f hw).trans hu) rfl h

/-- Settles O46: the next state's memory, `bank1` and cost, from the cases of a completed instruction. -/
theorem stepKeepsTheStateLegal : Obligations.StepKeepsTheStateLegal := by
  unfold Obligations.StepKeepsTheStateLegal
  intro s t hs h
  obtain ⟨i, -, hexec⟩ := step_next h
  exact exec_keeps_legal (s := { s with pc := s.pc + BitVec.ofNat 16 i.length }) hs hexec

/-- Settles O51: the bank resolution has no `ram_gate` in it, and a write of the field sets it whatever it held. -/
theorem ramGateIsUnobservable : Obligations.RamGateIsUnobservable := by
  unfold Obligations.RamGateIsUnobservable
  intro s gate
  obtain ⟨hfault, hnext⟩ := step_withHidden s s.f gate s.cycles
  refine ⟨hfault, fun t h => ?_⟩
  obtain ⟨gate', hstep, -⟩ := hnext t h
  have hf : t.f = s.f := step_keeps_f h
  rw [← hf] at hstep
  exact ⟨gate', hf ▸ hstep⟩

/-- Settles O50: both states are one state with different last costs, and the next state has its own. -/
theorem lastCostIsNeverRead : Obligations.LastCostIsNeverRead := by
  unfold Obligations.LastCostIsNeverRead
  intro s t h
  have ht : t = s.withHidden s.f s.mbc1.ramGate t.cycles := congrArg (fun u => { u with cycles := t.cycles }) h.symm
  obtain ⟨hfault, hnext⟩ := step_withHidden s s.f s.mbc1.ramGate t.cycles
  rw [ht]
  rcases hs : step s with u | f | r
  · obtain ⟨gate', hstep, hgate⟩ := hnext u hs
    obtain rfl := hgate rfl
    rw [hstep, ← show u.f = s.f from step_keeps_f hs]
    rfl
  · exact (hfault f hs).symm
  · exact absurd hs (step_ne_refused s r)

end Sys2Proof.Machine
end

section
/-! PROOF. The rules the statements about the encoding and the fetch rest on: the bit fields, the bytes at an address, and a
word loaded at `pc`. -/

namespace Sys2Proof

/-! ## The bit fields (R84) and the literals (R86, R87) -/

theorem lowByte_eq_ofNat (nn : Addr) : BitVec.ofNat 8 nn.toNat = lowByte nn := by
  refine BitVec.eq_of_toNat_eq ?_
  rw [BitVec.toNat_ofNat, lowByte_toNat]

theorem highByte_eq_ofNat (nn : Addr) : BitVec.ofNat 8 (nn.toNat / 256) = highByte nn := by
  refine BitVec.eq_of_toNat_eq ?_
  have := nn.isLt
  rw [BitVec.toNat_ofNat, highByte_toNat]
  omega

/-- The patterns of R84 with a 16-bit literal give its two bytes. -/
theorem encode_word_literal (op : Byte) (nn : Addr) :
    (if nn.toNat < 65536 then some [op, BitVec.ofNat 8 nn.toNat, BitVec.ofNat 8 (nn.toNat / 256)] else none) =
      some [op, lowByte nn, highByte nn] := by
  rw [if_pos nn.isLt, lowByte_eq_ofNat, highByte_eq_ofNat]

/-- The patterns of R84 with an 8-bit literal give its byte. -/
theorem encode_byte_literal (op n : Byte) :
    (if n.toNat < 256 then some [op, BitVec.ofNat 8 n.toNat] else none) = some [op, n] := by
  rw [if_pos n.isLt, BitVec.ofNat_toNat, BitVec.setWidth_eq]

/-- Class by class, the fields of R84 with the register codes of R13 are the opcode byte of R90. -/
theorem encode_source (i : Instr) : i.source.encode = some (encode i) := by
  induction i using Instr.class_induction with
  | ldRR dst r => rw [source_ldRR]; cases dst <;> cases r <;> rfl
  | ldRN dst n => rw [source_ldRN, Source.encode, encode_byte_literal]; cases dst <;> rfl
  | ldRMemHL r => rw [source_ldRMemHL]; cases r <;> rfl
  | ldMemHLR r => rw [source_ldMemHLR]; cases r <;> rfl
  | ldMemHLN n => exact encode_byte_literal _ n
  | ldMemBCA => rfl
  | ldAMemBC => rfl
  | ldMemDEA => rfl
  | ldAMemDE => rfl
  | ldMemCA => rfl
  | ldAMemC => rfl
  | jp nn => exact encode_word_literal _ nn
  | ldMemNNA nn => exact encode_word_literal _ nn
  | ldAMemNN nn => exact encode_word_literal _ nn

theorem toNat_ofNat_of_byteLiteral {n : Nat} (h : byteLiteral n = true) : (BitVec.ofNat 8 n).toNat = n :=
  Nat.mod_eq_of_lt (of_decide_eq_true h)

theorem toNat_ofNat_of_wordLiteral {nn : Nat} (h : wordLiteral nn = true) : (BitVec.ofNat 16 nn).toNat = nn :=
  Nat.mod_eq_of_lt (of_decide_eq_true h)

/-- Each operand pair that `Source.wf` admits is an instruction's. -/
theorem exists_source_of_wf {src : Source} (h : src.wf = true) : ∃ i : Instr, i.source = src := by
  unfold Source.wf at h
  split at h
  · exact ⟨.ldRR _ _, source_ldRR _ _⟩
  · exact ⟨.ldRN _ (BitVec.ofNat 8 _), by rw [source_ldRN, toNat_ofNat_of_byteLiteral h]⟩
  · exact ⟨.ldRMemHL _, source_ldRMemHL _⟩
  · exact ⟨.ldMemHLR _, source_ldMemHLR _⟩
  · exact ⟨.ldMemHLN (BitVec.ofNat 8 _), by rw [Instr.source, toNat_ofNat_of_byteLiteral h]⟩
  · exact ⟨.ldMemBCA, rfl⟩
  · exact ⟨.ldAMemBC, rfl⟩
  · exact ⟨.ldMemDEA, rfl⟩
  · exact ⟨.ldAMemDE, rfl⟩
  · exact ⟨.ldMemNNA (BitVec.ofNat 16 _), by rw [Instr.source, toNat_ofNat_of_wordLiteral h]⟩
  · exact ⟨.ldAMemNN (BitVec.ofNat 16 _), by rw [Instr.source, toNat_ofNat_of_wordLiteral h]⟩
  · exact ⟨.ldMemCA, rfl⟩
  · exact ⟨.ldAMemC, rfl⟩
  · exact ⟨.jp (BitVec.ofNat 16 _), by rw [Instr.source, toNat_ofNat_of_wordLiteral h]⟩
  · cases h

end Sys2Proof

namespace Sys2Proof.Machine

/-! ## The bytes at an address and the fetch (R97) -/

/-- `BytesAt` by index. -/
theorem bytesAt_iff (s : State) (addr : Addr) (bytes : List Byte) :
    BytesAt s addr bytes ↔ ∀ (k : Nat) (h : k < bytes.length), busRead s (addr + BitVec.ofNat 16 k) = .ok bytes[k] := by
  induction bytes generalizing addr with
  | nil => exact iff_of_true trivial nofun
  | cons v bytes ih =>
    have hshift (k : Nat) : nextPc addr + BitVec.ofNat 16 k = addr + BitVec.ofNat 16 (k + 1) := by
      rw [nextPc, BitVec.ofNat_add, add_comm (BitVec.ofNat 16 k), ← add_assoc]
      rfl
    rw [BytesAt, ih]
    simp only [hshift]
    constructor
    · rintro ⟨h0, hrest⟩ (_ | k) hk
      · exact (add_zero addr).symm ▸ h0
      · exact hrest k (Nat.lt_of_succ_lt_succ hk)
    · intro h
      exact ⟨add_zero addr ▸ h 0 (Nat.succ_pos _), fun k hk => h (k + 1) (Nat.succ_lt_succ hk)⟩

/-- An encoding that stands at `pc` is fetched (the other direction of `fetchInstr_got_encode`). -/
theorem fetchInstr_of_bytesAt {s : State} {i : Instr} (h : BytesAt s s.pc (encode i)) :
    fetchInstr s = .got i { s with pc := s.pc + BitVec.ofNat 16 i.length } := by
  have hgot {u : State} {j : Instr} (hf : fetchInstr s = .got j u) (hj : j = i) :
      fetchInstr s = .got i { s with pc := s.pc + BitVec.ofNat 16 i.length } := by
    subst hj
    rw [hf, (fetchInstr_got_encode hf).2]
  obtain ⟨he, hbytes⟩ | ⟨mk, n, hi, he, hbytes⟩ | ⟨mk, nn, hi, he, hbytes⟩ := encode_cases i <;> rw [hbytes] at h
  · exact hgot (fetchInstr_of_op h.1 he) rfl
  · obtain ⟨hop, hn, -⟩ := h
    exact hgot (fetchInstr_of_opN hop he hn) hi.symm
  · obtain ⟨hop, hlo, hhi, -⟩ := h
    rw [nextPc_nextPc] at hhi
    exact hgot (fetchInstr_of_opNN hop he hlo hhi) hi.symm

theorem step_of_bytesAt {s : State} {i : Instr} (h : BytesAt s s.pc (encode i)) :
    step s = exec i { s with pc := s.pc + BitVec.ofNat 16 i.length } := by
  simp only [step, fetchInstr_of_bytesAt h]

/-! ## A word loaded from outside (log 1) -/

/-- The byte `v` stands at `addr`, in work RAM or within the image. -/
def ByteStands (s : State) (addr : Addr) (v : Byte) : Prop :=
  (InWram addr ∧ wramByte s.wram (wramIndex addr) = v) ∨
    ∃ bank, InCart addr ∧ activeRomBank s.mbc1 addr = .ok bank ∧ (physIndex bank addr).toNat < s.cart.len ∧
      s.cart.byte (physIndex bank addr).toNat = v

theorem ByteStands.busRead {s : State} {addr : Addr} {v : Byte} (h : ByteStands s addr v) : busRead s addr = .ok v := by
  obtain ⟨hw, rfl⟩ | ⟨bank, hc, hbank, hlen, rfl⟩ := h
  · exact busRead_of_inWram hw
  · rw [busRead_of_inCart hc]
    simp only [romRead, hbank, if_pos hlen]

theorem byteStands_placeByte (s : State) {addr : Addr} (v : Byte) (h : Mapped addr) :
    ByteStands (placeByte s addr v) addr v := by
  obtain ⟨bank, hc, hbank, he⟩ | ⟨hw, he⟩ | ⟨hc, hw, -⟩ := placeByte_cases s addr v
  · rw [he]
    exact .inr ⟨bank, hc, hbank, lt_max_of_lt_right (Nat.lt_succ_self _), s.cart.byte_load_same _ v⟩
  · rw [he]
    exact .inl ⟨hw, wramByte_wramWrite_same _ _ v⟩
  · exact absurd h (not_or.mpr ⟨hc, hw⟩)

/-- A byte that stands somewhere stays when another is placed at an address with another offset within a bank: the two have
different indices, whatever their banks. -/
theorem ByteStands.placeByte {s : State} {addr other : Addr} {v : Byte} (h : ByteStands s addr v) (w : Byte)
    (hne : addr.toNat % 0x4000 ≠ other.toNat % 0x4000) : ByteStands (placeByte s other w) addr v := by
  obtain ⟨bank', -, -, he⟩ | ⟨hw', he⟩ | ⟨-, -, he⟩ := placeByte_cases s other w <;> rw [he]
  · obtain hstands | ⟨bank, hc, hbank, hlen, hbyte⟩ := h
    · exact .inl hstands
    · have hidx : (physIndex bank addr).toNat ≠ (physIndex bank' other).toNat := by
        rw [physIndex_toNat, physIndex_toNat]
        omega
      exact .inr ⟨bank, hc, hbank, lt_max_of_lt_left hlen, (Cartridge.byte_load_of_ne hidx).trans hbyte⟩
  · obtain ⟨hw, hbyte⟩ | hstands := h
    · have hidx : wramIndex addr ≠ wramIndex other := fun hi => hne (eq_of_wramIndex_eq hw' hw hi ▸ rfl)
      exact .inl ⟨hw, (wramByte_wramWrite_of_ne hidx).trans hbyte⟩
    · exact .inr hstands
  · exact h

/-- Placing a byte changes the two arrays only. -/
theorem placeByte_frame (s : State) (addr : Addr) (v : Byte) :
    placeByte s addr v = { s with wram := (placeByte s addr v).wram, cart := (placeByte s addr v).cart } := by
  obtain ⟨_, -, -, he⟩ | ⟨-, he⟩ | ⟨-, -, he⟩ := placeByte_cases s addr v <;> rw [he]

theorem placeThree_frame (s : State) (addr : Addr) (v0 v1 v2 : Byte) :
    placeThree s addr v0 v1 v2 =
      { s with wram := (placeThree s addr v0 v1 v2).wram, cart := (placeThree s addr v0 v1 v2).cart } := by
  unfold placeThree
  rw [placeByte_frame (placeByte (placeByte s addr v0) (addr + 1) v1),
    placeByte_frame (placeByte s addr v0), placeByte_frame s]

/-- Each of the three bytes whose address is mapped stands where it was placed. -/
theorem byteStands_placeThree (s : State) (addr : Addr) (v0 v1 v2 : Byte) :
    (Mapped addr → ByteStands (placeThree s addr v0 v1 v2) addr v0) ∧
      (Mapped (addr + 1) → ByteStands (placeThree s addr v0 v1 v2) (addr + 1) v1) ∧
      (Mapped (addr + 2) → ByteStands (placeThree s addr v0 v1 v2) (addr + 2) v2) := by
  have h1 : (addr + 1).toNat = (addr.toNat + 1) % 65536 := BitVec.toNat_add addr 1
  have h2 : (addr + 2).toNat = (addr.toNat + 2) % 65536 := BitVec.toNat_add addr 2
  refine ⟨fun h => ?_, fun h => ?_, fun h => ?_⟩
  · exact ((byteStands_placeByte s v0 h).placeByte v1 (by omega)).placeByte v2 (by omega)
  · exact (byteStands_placeByte _ v1 h).placeByte v2 (by omega)
  · exact byteStands_placeByte _ v2 h

/-- An instruction whose encoding begins the three bytes placed stands there, where its own addresses are mapped. -/
theorem bytesAt_placeThree {s : State} {addr : Addr} {v0 v1 v2 : Byte} {i : Instr} {rest : List Byte}
    (hmapped : ∀ k, k < i.length → Mapped (addr + BitVec.ofNat 16 k)) (h : [v0, v1, v2] = encode i ++ rest) :
    BytesAt (placeThree s addr v0 v1 v2) addr (encode i) := by
  obtain ⟨stands0, stands1, stands2⟩ := byteStands_placeThree s addr v0 v1 v2
  rw [bytesAt_iff]
  intro k hk
  have hmap := hmapped k (length_encode i ▸ hk)
  have hlen := congrArg List.length h
  rw [List.length_append] at hlen
  have hget : (encode i)[k] = [v0, v1, v2][k]'(by rw [hlen]; omega) := by
    simp only [h, List.getElem_append_left hk]
  rw [hget]
  match k, hmap, hk with
  | 0, hmap, _ =>
    have hzero : addr + BitVec.ofNat 16 0 = addr := add_zero addr
    rw [hzero] at hmap ⊢
    exact (stands0 hmap).busRead
  | 1, hmap, _ => exact (stands1 hmap).busRead
  | 2, hmap, _ => exact (stands2 hmap).busRead
  | k + 3, _, hk => exact absurd hlen (by simp only [List.length_cons, List.length_nil]; omega)

/-- A word that decodes to `i` begins with the encoding of `i`. -/
theorem exists_append_of_decodeTableWord {nbits w : Nat} {i : Instr} (h : decodeTableWord nbits w = some i) :
    ∃ rest, [tableByte (w % 2 ^ nbits) 0, tableByte (w % 2 ^ nbits) 1, tableByte (w % 2 ^ nbits) 2] =
      encode i ++ rest := by
  simp only [decodeTableWord] at h
  split at h
  · cases h
    exact ⟨_, eq_encode_append_of_decode ‹_›⟩
  · cases h

end Sys2Proof.Machine
end

section
/-! PROOF. The statements about the two descriptions of the encoding, and about the decoder and the fetch. -/

namespace Sys2Proof.Machine

/-- Settles O35: class by class the bit fields give the opcode map's bytes; each admitted pair of operands is a class's. -/
theorem bitFieldsAgreeWithTheOpcodeMap : Obligations.BitFieldsAgreeWithTheOpcodeMap := by
  unfold Obligations.BitFieldsAgreeWithTheOpcodeMap
  refine ⟨encode_source, fun src => ⟨exists_source_of_wf, ?_⟩⟩
  rintro ⟨i, rfl⟩
  exact i.wf_eq_true

/-- Settles O36: the table's counts by evaluation; an instruction decoded from a byte has that byte as its opcode. -/
theorem eightyOpcodesAreImplemented : Obligations.EightyOpcodesAreImplemented := by
  unfold Obligations.EightyOpcodesAreImplemented
  refine ⟨by decide +kernel, rfl, by decide, rfl, rfl, rfl, fun op op' bytes bytes' rest rest' i h h' => ?_⟩
  have hop : op = i.opcode := (List.cons.inj (eq_encode_append_of_decode h)).1
  have hop' : op' = i.opcode := (List.cons.inj (eq_encode_append_of_decode h')).1
  rw [hop, hop']

/-- Settles O37: each word is the encoding of its instruction. -/
theorem sampleWordsDecodeAsTheMapSays : Obligations.SampleWordsDecodeAsTheMapSays := by
  unfold Obligations.SampleWordsDecodeAsTheMapSays
  exact ⟨decode_encode .ldBC [], decode_encode (.ldBN 0xB7) [], decode_encode .ldBMemHL [], decode_encode .ldMemHLB [],
    decode_encode (.ldMemHLN 0xE7) [], decode_encode .ldMemBCA [], decode_encode .ldAMemDE [],
    decode_encode (.jp 0x0150) [], decode_encode (.ldMemNNA 0xD234) [], decode_encode (.ldAMemNN 0xD234) [],
    decode_encode .ldMemCA [], decode_encode .ldAMemC []⟩

/-- Settles O39: bytes that decode with nothing left over are the instruction's encoding, which the fetch reads. -/
theorem stepRunsTheDecodedInstruction : Obligations.StepRunsTheDecodedInstruction := by
  unfold Obligations.StepRunsTheDecodedInstruction
  intro s bytes i hdecode hread
  obtain rfl : bytes = encode i := (eq_encode_append_of_decode hdecode).trans (List.append_nil _)
  rw [length_encode]
  exact step_of_bytesAt ((bytesAt_iff s s.pc (encode i)).mpr hread)

/-- Settles O52: the three placed bytes have three different indices, so the instruction's own stand where the fetch reads. -/
theorem loadedWordRunsNext : Obligations.LoadedWordRunsNext := by
  unfold Obligations.LoadedWordRunsNext
  intro s i w hmapped hword t
  obtain ⟨rest, hbytes⟩ := exists_append_of_decodeTableWord hword
  have hframe : t = { s with wram := t.wram, cart := t.cart } := placeThree_frame s s.pc _ _ _
  have hpc : t.pc = s.pc := (congrArg State.pc hframe :)
  refine ⟨?_, hframe⟩
  rw [← hpc]
  exact step_of_bytesAt (hpc ▸ bytesAt_placeThree hmapped hbytes)

end Sys2Proof.Machine
end

section
/-! PROOF. The rules the statements about faults, transactions and costs rest on: the transactions of a step are the reads of
its fetch and then the data access of the instruction, and the fault of a step is one of theirs. -/

namespace Sys2Proof.Machine

/-! ## The transactions of a fetch (R64) -/

/-- The reads of `n` bytes at `addr` and the addresses after it. -/
def fetchReads : Addr → Nat → List Transaction
  | _, 0 => []
  | addr, n + 1 => .read addr :: fetchReads (nextPc addr) n

@[simp] theorem length_fetchReads (addr : Addr) (n : Nat) : (fetchReads addr n).length = n := by
  induction n generalizing addr with
  | zero => rfl
  | succ n ih => rw [fetchReads, List.length_cons, ih]

theorem eq_read_of_mem_fetchReads {addr : Addr} {n : Nat} {x : Transaction} (h : x ∈ fetchReads addr n) :
    ∃ addr', x = .read addr' := by
  induction n generalizing addr with
  | zero => cases h
  | succ n ih =>
    obtain rfl | h := List.mem_cons.mp h
    · exact ⟨addr, rfl⟩
    · exact ih h

theorem performAll_read_cons_of_ok {s : State} {addr : Addr} {v : Byte} (h : busRead s addr = .ok v)
    (xs : List Transaction) : performAll s (.read addr :: xs) = performAll s xs := by
  simp only [performAll, perform, h]

theorem performAll_read_cons_of_fault {s : State} {addr : Addr} {f : Fault} (h : busRead s addr = .fault f)
    (xs : List Transaction) : performAll s (.read addr :: xs) = .fault f := by
  simp only [performAll, perform, h]

theorem perform_read_of_fault {s : State} {addr : Addr} {f : Fault} (h : busRead s addr = .fault f) :
    perform s (.read addr) = .fault f := by
  simp only [perform, h]

theorem perform_read_fault {s : State} {addr : Addr} {f : Fault} (h : perform s (.read addr) = .fault f) :
    busRead s addr = .fault f := by
  rcases hread : busRead s addr with v | f' <;> simp only [perform, hread] at h <;> cases h
  rfl

@[simp] theorem performAll_singleton (s : State) (x : Transaction) : performAll s [x] = perform s x := by
  simp only [performAll]
  rcases perform s x with t | f <;> rfl

/-- Reads of bytes that stand there change nothing. -/
theorem performAll_fetchReads_append {s : State} {addr : Addr} {bytes : List Byte} (h : BytesAt s addr bytes)
    (xs : List Transaction) : performAll s (fetchReads addr bytes.length ++ xs) = performAll s xs := by
  induction bytes generalizing addr with
  | nil => rfl
  | cons v bytes ih =>
    obtain ⟨hread, hrest⟩ := h
    rw [List.length_cons, fetchReads, List.cons_append, performAll_read_cons_of_ok hread, ih hrest]

/-- A completed fetch reads the instruction's encoding; after it comes the data access. -/
theorem transactions_of_bytesAt {s : State} {i : Instr} (h : BytesAt s s.pc (encode i)) :
    transactions s = fetchReads s.pc i.length ++ (dataAccess i s).toList := by
  rw [← length_encode]
  obtain ⟨he, hbytes⟩ | ⟨mk, n, rfl, he, hbytes⟩ | ⟨mk, nn, rfl, he, hbytes⟩ := encode_cases i <;> rw [hbytes] at h ⊢
  · exact transactions_of_op h.1 he
  · obtain ⟨hop, hn, -⟩ := h
    exact transactions_of_opN hop he hn
  · obtain ⟨hop, hlo, hhi, -⟩ := h
    rw [nextPc_nextPc] at hhi
    rw [transactions_of_opNN hop he hlo hhi, ← nextPc_nextPc]
    rfl

/-- A fetch that a read ends has read as far as that read, and `pc` is past the bytes before it (R208, R209). -/
def FetchReadFaults (s u : State) (f : Fault) : Prop :=
  ∃ n ≤ 2, transactions s = fetchReads s.pc (n + 1) ∧ performAll s (transactions s) = .fault f ∧
    u = { s with pc := s.pc + BitVec.ofNat 16 n }

/-- A fetch ends by a read that faults, or at an unimplemented opcode after its one read. -/
theorem fetchInstr_raised_transactions {s u : State} {f : Fault} (h : fetchInstr s = .raised f u) :
    FetchReadFaults s u f ∨
      ∃ op, f = .decodeFault op s.pc ∧ busRead s s.pc = .ok op ∧ opcodeEntry op = none ∧
        transactions s = [.read s.pc] ∧ u = { s with pc := s.pc + 1 } := by
  obtain ⟨f, h0, e⟩ | ⟨op, h0, ⟨he, e⟩ | ⟨i, -, e⟩ | ⟨mk, he, ⟨f, h1, e⟩ | ⟨n, -, e⟩⟩ |
      ⟨mk, he, ⟨f, h1, e⟩ | ⟨lo, h1, ⟨f, h2, e⟩ | ⟨hi, -, e⟩⟩⟩⟩ := fetchInstr_cases s <;>
    rw [e] at h <;> cases h
  · have htrans : transactions s = [.read s.pc] := by simp only [transactions, h0]
    refine .inl ⟨0, by omega, htrans, ?_, ?_⟩
    · rw [htrans, performAll_read_cons_of_fault h0]
    · exact congrArg (fun p => { s with pc := p }) (add_zero s.pc).symm
  · exact .inr ⟨op, rfl, h0, he, transactions_of_unimplemented h0 he, rfl⟩
  · have htrans : transactions s = [.read s.pc, .read (s.pc + 1)] := by simp only [transactions, h0, he, h1]
    refine .inl ⟨1, by omega, htrans, ?_, rfl⟩
    rw [htrans, performAll_read_cons_of_ok h0, performAll_read_cons_of_fault h1]
  · have htrans : transactions s = [.read s.pc, .read (s.pc + 1)] := by simp only [transactions, h0, he, h1]
    refine .inl ⟨1, by omega, htrans, ?_, rfl⟩
    rw [htrans, performAll_read_cons_of_ok h0, performAll_read_cons_of_fault h1]
  · have htrans : transactions s = [.read s.pc, .read (s.pc + 1), .read (s.pc + 2)] := by
      simp only [transactions, h0, he, h1, h2]
    refine .inl ⟨2, by omega, by rw [htrans, ← nextPc_nextPc]; rfl, ?_, rfl⟩
    rw [htrans, performAll_read_cons_of_ok h0, performAll_read_cons_of_ok h1, performAll_read_cons_of_fault h2]

/-- The transactions of a step: up to three reads and at most one data access (R64). -/
theorem transactions_shape (s : State) :
    ∃ n ≤ 3, ∃ x : Option Transaction, transactions s = fetchReads s.pc n ++ x.toList := by
  rcases h : fetchInstr s with ⟨i, u⟩ | ⟨f, u⟩
  · exact ⟨i.length, i.length_le_three, dataAccess i s, transactions_of_bytesAt (fetchInstr_got_encode h).1⟩
  · obtain ⟨n, hn, htrans, -⟩ | ⟨_, -, -, -, htrans, -⟩ := fetchInstr_raised_transactions h
    · exact ⟨n + 1, Nat.succ_le_succ hn, none, by rw [htrans, Option.toList_none, List.append_nil]⟩
    · exact ⟨1, by omega, none, htrans⟩

theorem length_transactions_le (s : State) : (transactions s).length ≤ 4 := by
  obtain ⟨n, hn, x, h⟩ := transactions_shape s
  have hx : x.toList.length ≤ 1 := by cases x <;> simp
  rw [h, List.length_append, length_fetchReads]
  omega

theorem eq_read_of_not_last {s : State} {pre : List Transaction} {x y : Transaction}
    (h : transactions s = pre ++ [x]) (hy : y ∈ pre) : ∃ addr, y = .read addr := by
  obtain ⟨n, -, z, hshape⟩ := transactions_shape s
  rw [h] at hshape
  cases z with
  | none =>
    have hmem : y ∈ pre ++ [x] := List.mem_append_left [x] hy
    rw [hshape, Option.toList_none, List.append_nil] at hmem
    exact eq_read_of_mem_fetchReads hmem
  | some z =>
    obtain ⟨rfl, -⟩ := List.append_inj' hshape rfl
    exact eq_read_of_mem_fetchReads hy

/-! ## The data access, before and after the fetches -/

/-- The fetches do not move the data access: it does not depend on `pc`. -/
@[simp] theorem dataAccess_withPc (i : Instr) (s : State) (p : Addr) :
    dataAccess i { s with pc := p } = dataAccess i s := by
  have hregs (r : Reg) : State.reg { s with pc := p } r = s.reg r := s.reg_pc p r
  cases effect i with
  | copy _ _ _ hdata _ => rw [hdata, hdata]
  | imm _ _ _ hdata _ => rw [hdata, hdata]
  | jump nn hi => rw [hi, dataAccess_jp, dataAccess_jp]
  | load _ _ _ _ haddr hdata _ => rw [hdata, hdata, haddr _ s hregs]
  | store _ _ _ _ haddr hv hdata _ => rw [hdata, hdata, haddr _ s hregs, hv _ s hregs]

theorem perform_withPc_fault {s : State} {p : Addr} {x : Transaction} {f : Fault}
    (h : perform { s with pc := p } x = .fault f) : perform s x = .fault f := by
  cases x with
  | read addr => exact perform_read_of_fault ((busRead_pc s p addr).symm.trans (perform_read_fault h))
  | write addr v =>
    obtain ⟨hc, hw, rfl⟩ := busWrite_fault h
    exact busWrite_of_not_mapped s v (not_or.mpr ⟨hc, hw⟩)

theorem perform_withPc_ok {s t : State} {p : Addr} {x : Transaction} (h : perform { s with pc := p } x = .ok t) :
    perform s x = .ok { t with pc := s.pc } := by
  cases x with
  | read addr =>
    rcases hread : busRead s addr with v | f <;> simp only [perform, busRead_pc, hread] at h ⊢ <;> cases h
    rfl
  | write addr v =>
    obtain ⟨hc, m, hm, rfl⟩ | ⟨hw, rfl⟩ := busWrite_ok h
    · exact busWrite_of_inCart hc hm
    · exact busWrite_of_inWram v hw

/-- A completed instruction leaves the arrays and the MBC1 as its data access does. -/
theorem exec_next_performs {i : Instr} {s t : State} (h : exec i s = .next t) :
    ∃ u, performAll s (dataAccess i s).toList = .ok u ∧ u.mbc1 = t.mbc1 ∧ u.wram = t.wram ∧ u.cart = t.cart := by
  obtain ⟨_, _, hd, e⟩ | ⟨_, _, hd, e⟩ | ⟨nn, rfl, hd, e⟩ | ⟨_, _, _, hd, e⟩ | ⟨_, _, _, hd, e⟩ := exec_cases i s <;>
    rw [e] at h <;> rw [hd]
  · obtain rfl := copyReg_next h
    exact ⟨s, rfl, by simp, by simp, by simp⟩
  · obtain rfl := loadImm_next h
    exact ⟨s, rfl, by simp, by simp, by simp⟩
  · obtain rfl := jumpTo_next h
    exact ⟨s, rfl, rfl, rfl, rfl⟩
  · obtain ⟨v, hread, rfl⟩ := loadByte_next h
    exact ⟨s, performAll_read_cons_of_ok hread [], by simp, by simp, by simp⟩
  · obtain ⟨u, hwrite, rfl⟩ := storeByte_next h
    exact ⟨u, (performAll_singleton s _).trans hwrite, rfl, rfl, rfl⟩

/-- A step's transactions performed from its start, when it completes (R64). -/
theorem step_next_performs {s t : State} (h : step s = .next t) :
    ∃ u, performAll s (transactions s) = .ok u ∧ u.mbc1 = t.mbc1 ∧ u.wram = t.wram ∧ u.cart = t.cart := by
  obtain ⟨i, hbytes, hexec⟩ := step_next h
  obtain ⟨u, hperform, hmbc1, hwram, hcart⟩ := exec_next_performs hexec
  rw [transactions_of_bytesAt hbytes, ← length_encode, performAll_fetchReads_append hbytes]
  rw [dataAccess_withPc] at hperform
  rcases hx : dataAccess i s with _ | x <;> rw [hx] at hperform
  · cases hperform
    exact ⟨s, rfl, hmbc1, hwram, hcart⟩
  · rw [Option.toList_some, performAll_singleton] at hperform ⊢
    exact ⟨_, perform_withPc_ok hperform, hmbc1, hwram, hcart⟩

/-- Where a step's fault comes from: its data access after a completed fetch, a read of the fetch, or the decoder. -/
theorem step_fault_cases {s : State} {f : Fault} (h : step s = .fault f) :
    (∃ i x, BytesAt s s.pc (encode i) ∧ dataAccess i s = some x ∧ perform s x = .fault f ∧
        stateAtFault s = { s with pc := s.pc + BitVec.ofNat 16 i.length }) ∨
      FetchReadFaults s (stateAtFault s) f ∨
      ∃ op, f = .decodeFault op s.pc ∧ busRead s s.pc = .ok op ∧ opcodeEntry op = none ∧
        transactions s = [.read s.pc] ∧ stateAtFault s = { s with pc := s.pc + 1 } := by
  obtain ⟨u, hraised⟩ | ⟨i, u, hgot, hexec⟩ := step_fault h
  · have hat : stateAtFault s = u := (step_of_fetchInstr_raised hraised).2
    rw [hat]
    exact .inr (fetchInstr_raised_transactions hraised)
  · have hat : stateAtFault s = u := by simp only [stateAtFault, hgot]
    obtain ⟨hbytes, hu⟩ := fetchInstr_got_encode hgot
    obtain ⟨x, hx, hperform⟩ := exec_fault hexec
    rw [hu] at hx hperform
    exact .inl ⟨i, x, hbytes, (dataAccess_withPc i s _).symm.trans hx, perform_withPc_fault hperform, hat.trans hu⟩

/-- Everything a transaction can fault with, by `busRead_fault` and `busWrite_fault`. -/
theorem perform_fault {s : State} {x : Transaction} {f : Fault} (h : perform s x = .fault f) :
    (∃ addr kind, ¬Mapped addr ∧ f = .busUnmapped addr kind) ∨
      ∃ addr, busRead s addr = .fault f := by
  cases x with
  | read addr => exact .inr ⟨addr, perform_read_fault h⟩
  | write addr v =>
    obtain ⟨hc, hw, rfl⟩ := busWrite_fault h
    exact .inl ⟨addr, .write, not_or.mpr ⟨hc, hw⟩, rfl⟩

/-- A step's fault is the decoder's, an unmapped access, or the fault of a Bus read. -/
theorem step_fault_busRead {s : State} {f : Fault} (h : step s = .fault f) :
    (∃ op, f = .decodeFault op s.pc ∧ busRead s s.pc = .ok op ∧ opcodeEntry op = none) ∨
      (∃ addr kind, ¬Mapped addr ∧ f = .busUnmapped addr kind) ∨ ∃ addr, busRead s addr = .fault f := by
  obtain ⟨u, hraised⟩ | ⟨i, u, hgot, hexec⟩ := step_fault h
  · obtain hread | ⟨op, hop, he, hf⟩ := fetchInstr_raised hraised
    · exact .inr (.inr hread)
    · exact .inl ⟨op, hf, hop, he⟩
  · obtain ⟨p, rfl⟩ := fetchInstr_got hgot
    obtain ⟨x, -, hperform⟩ := exec_fault hexec
    exact .inr (perform_fault (perform_withPc_fault hperform))

/-! ## Costs (R258) -/

theorem loadByte_cycles {dst : Reg} {addr : Addr} {cost : BitVec 8} {s t : State}
    (h : loadByte dst addr cost s = .next t) : t.cycles = cost := by
  obtain ⟨_, -, rfl⟩ := loadByte_next h
  rfl

theorem storeByte_cycles {addr : Addr} {v : Byte} {cost : BitVec 8} {s t : State}
    (h : storeByte addr v cost s = .next t) : t.cycles = cost := by
  obtain ⟨_, -, rfl⟩ := storeByte_next h
  rfl

end Sys2Proof.Machine
end

section
/-! PROOF. The statements about faults, transactions and costs. -/

namespace Sys2Proof.Machine

/-- Settles O41: a fault of a step is the decoder's or a Bus transaction's, and those name their cause. -/
theorem everyStepCompletesOrHasANamedFault : Obligations.EveryStepCompletesOrHasANamedFault := by
  unfold Obligations.EveryStepCompletesOrHasANamedFault
  intro s
  rcases h : step s with t | f | r
  · exact .inl ⟨t, rfl⟩
  · refine .inr ⟨f, rfl, ?_⟩
    obtain ⟨op, rfl, hop, he⟩ | ⟨addr, kind, hun, rfl⟩ | ⟨addr, hread⟩ := step_fault_busRead h
    · exact ⟨rfl, hop, he⟩
    · exact hun
    · obtain ⟨hun, rfl⟩ | ⟨bank, hc, hbank, hlen, rfl, hoob⟩ := busRead_fault hread
      · exact hun
      · exact ⟨hc, hbank, rfl, hlen, hoob⟩
  · exact absurd h (step_ne_refused s r)

/-- Settles O42: the fetch's reads and the data access, one after another; a fault is that of the last one. -/
theorem stepIsItsBusTransactions : Obligations.StepIsItsBusTransactions := by
  unfold Obligations.StepIsItsBusTransactions
  refine fun s => ⟨length_transactions_le s, fun pre x h y => eq_read_of_not_last h, fun t => step_next_performs,
    fun f h => ?_⟩
  obtain ⟨i, x, hbytes, hx, hperform, -⟩ | ⟨n, -, -, hperform, -⟩ | ⟨op, hf, hop, he, htrans, -⟩ := step_fault_cases h
  · left
    rw [transactions_of_bytesAt hbytes, ← length_encode, performAll_fetchReads_append hbytes, hx, Option.toList_some,
      performAll_singleton, hperform]
  · exact .inl hperform
  · exact .inr ⟨op, hf, hop, he, htrans⟩

/-- Settles O43: the fetch has moved `pc` past the bytes it read, at most three, and the data access that faults changes
nothing. -/
theorem faultLeavesEverythingButPc : Obligations.FaultLeavesEverythingButPc := by
  unfold Obligations.FaultLeavesEverythingButPc
  intro s f h
  have hpc : ∃ n ≤ 3, stateAtFault s = { s with pc := s.pc + BitVec.ofNat 16 n } := by
    obtain ⟨i, _, -, -, -, hat⟩ | ⟨n, hn, -, -, hat⟩ | ⟨_, -, -, -, -, hat⟩ := step_fault_cases h
    · exact ⟨i.length, i.length_le_three, hat⟩
    · exact ⟨n, by omega, hat⟩
    · exact ⟨1, by omega, hat⟩
  obtain ⟨n, hn, hat⟩ := hpc
  refine ⟨by rw [hat], ?_, ?_⟩
  · rw [hat]
    obtain rfl | rfl | rfl | rfl : n = 0 ∨ n = 1 ∨ n = 2 ∨ n = 3 := by omega
    · exact .inl (add_zero s.pc)
    · exact .inr (.inl rfl)
    · exact .inr (.inr (.inl rfl))
    · exact .inr (.inr (.inr rfl))
  · rintro op p rfl
    obtain ⟨hop, he, -⟩ := step_decodeFault h
    rw [(step_of_fetchInstr_raised (fetchInstr_of_unimplemented hop he)).2]

/-- Settles O49: both are the fetched bytes and the data access, but for the jump. -/
theorem costIsTheTransactionCountButForJump : Obligations.CostIsTheTransactionCountButForJump := by
  unfold Obligations.CostIsTheTransactionCountButForJump
  intro s t h
  obtain ⟨i, hbytes, hexec⟩ := step_next h
  have hcount : (transactions s).length = i.length + (dataAccess i s).toList.length := by
    rw [transactions_of_bytesAt hbytes, List.length_append, length_fetchReads]
  by_cases hjp : ∃ nn, i = .jp nn
  · obtain ⟨nn, rfl⟩ := hjp
    exact .inl ⟨hbytes.1, hcount, exec_jp_cycles hexec⟩
  · refine .inr ⟨fun hop => hjp ?_, ?_⟩
    · exact eq_jp_of_opcode_eq (Res.ok.inj (hbytes.1.symm.trans hop))
    · rw [hcount, exec_cycles hexec fun nn hi => hjp ⟨nn, hi⟩, dataAccess_withPc]

/-- Settles O48: each class is one operation with its cost, and the classes are all the instructions. -/
theorem costsOfEachClass : Obligations.CostsOfEachClass := by
  unfold Obligations.CostsOfEachClass
  refine ⟨fun dst r s t h => ?_, fun dst n s t h => ?_, fun r s t h => ?_, fun n s t h => storeByte_cycles h,
    fun i hi s t h => ?_, fun nn s t h => ?_, fun s t => ?_, Instr.inClass⟩
  · rw [copyReg_next ((exec_ldRR dst r s).symm.trans h)]
  · rw [loadImm_next ((exec_ldRN dst n s).symm.trans h)]
  · obtain h | h := h
    · exact loadByte_cycles ((exec_ldRMemHL r s).symm.trans h)
    · exact storeByte_cycles ((exec_ldMemHLR r s).symm.trans h)
  · simp only [List.mem_cons, List.not_mem_nil, or_false] at hi
    obtain rfl | rfl | rfl | rfl := hi
    · exact storeByte_cycles h
    · exact loadByte_cycles h
    · exact storeByte_cycles h
    · exact loadByte_cycles h
  · obtain h | h | h := h
    · exact exec_jp_cycles h
    · exact storeByte_cycles h
    · exact loadByte_cycles h
  · rw [exec_ldMemCA, exec_ldAMemC]
    exact ⟨nofun, nofun⟩

end Sys2Proof.Machine
end

section
/-! PROOF. The statements about the run loop (spec/70_reset_and_hazards.md section 2): one pass of a run, and then inductions
on the gas. -/

namespace Sys2Proof.Machine

/-! ## One pass of a run (R234, R235) -/

section pass
variable {s t : State} {f : Fault} (k n : Nat)

/-- A run without gas has stopped, however long it is observed. -/
theorem runLoop_limited_zero (s : State) : runLoop k (.limited 0) s = .stopped s := by
  cases k <;> rfl

theorem runWithGas_succ_of_next (h : step s = .next t) : runWithGas (n + 1) s = runWithGas n t := by
  simp only [runWithGas, runLoop, Gas.pay, h]

theorem runWithGas_succ_of_fault (h : step s = .fault f) : runWithGas (n + 1) s = .faulted f := by
  simp only [runWithGas, runLoop, Gas.pay, h]

theorem runForever_succ_of_next (h : step s = .next t) : runForever (k + 1) s = runForever k t := by
  simp only [runForever, runLoop, Gas.pay, h]

theorem runForever_succ_of_fault (h : step s = .fault f) : runForever (k + 1) s = .faulted f := by
  simp only [runForever, runLoop, Gas.pay, h]

/-- The machine's own run makes the same step. -/
theorem core_run_succ_of_next (h : step s = .next t) : core.run (n + 1) s = core.run n t := by
  have hcore : core.step s = .next t := h
  simp only [Host.Core.run, hcore]

theorem core_run_succ_of_fault (h : step s = .fault f) : core.run (n + 1) s = .fault f := by
  have hcore : core.step s = .fault f := h
  simp only [Host.Core.run, hcore]

end pass

/-- A step completes or faults. -/
theorem step_next_or_fault (s : State) : (∃ t, step s = .next t) ∨ ∃ f, step s = .fault f := by
  rcases h : step s with t | f | r
  · exact .inl ⟨t, rfl⟩
  · exact .inr ⟨f, rfl⟩
  · exact absurd h (step_ne_refused s r)

/-! ## Whole runs -/

/-- The run with gas `n` beside `n` steps of the machine. -/
theorem runWithGas_eq_core_run (n : Nat) (s : State) :
    (∃ t, core.run n s = .next t ∧ runWithGas n s = .stopped t) ∨
      ∃ f, core.run n s = .fault f ∧ runWithGas n s = .faulted f := by
  induction n generalizing s with
  | zero => exact .inl ⟨s, rfl, rfl⟩
  | succ n ih =>
    obtain ⟨t, h⟩ | ⟨f, h⟩ := step_next_or_fault s
    · rw [core_run_succ_of_next n h, runWithGas_succ_of_next n h]
      exact ih t
    · exact .inr ⟨f, core_run_succ_of_fault n h, runWithGas_succ_of_fault n h⟩

/-- Passes after the gas is used up change nothing. -/
theorem runLoop_extra_passes (n k : Nat) (s : State) : runLoop (n + k) (.limited n) s = runWithGas n s := by
  induction n generalizing s with
  | zero => exact runLoop_limited_zero (0 + k) s
  | succ n ih =>
    rw [Nat.succ_add]
    obtain ⟨t, h⟩ | ⟨f, h⟩ := step_next_or_fault s
    · rw [runWithGas_succ_of_next n h, ← ih t]
      simp only [runLoop, Gas.pay, h]
    · rw [runWithGas_succ_of_fault n h]
      simp only [runLoop, Gas.pay, h]

/-- Settles O53: one pass is one step, and the steps are the machine's, by induction on the gas. -/
theorem gasBoundsTheRun : Obligations.GasBoundsTheRun := by
  unfold Obligations.GasBoundsTheRun
  exact ⟨fun _ => rfl, fun n _ _ => runWithGas_succ_of_next n, fun n _ _ => runWithGas_succ_of_fault n,
    runWithGas_eq_core_run, runLoop_extra_passes⟩

/-- Settles O54, by induction on the first gas: both runs make the same first step. -/
theorem gasAddsUp : Obligations.GasAddsUp := by
  unfold Obligations.GasAddsUp
  intro a b s
  induction a generalizing s with
  | zero =>
    refine ⟨fun t h => ?_, fun f h => (nomatch h)⟩
    cases h
    rw [Nat.zero_add]
  | succ a ih =>
    rw [Nat.succ_add]
    obtain ⟨u, h⟩ | ⟨f, h⟩ := step_next_or_fault s
    · rw [runWithGas_succ_of_next a h, runWithGas_succ_of_next (a + b) h]
      exact ih u
    · rw [runWithGas_succ_of_fault a h, runWithGas_succ_of_fault (a + b) h]
      exact ⟨nofun, fun _ => id⟩

/-- Settles O55, by induction on the passes: the two runs make the same first step, and without one the limited run has
stopped where the other is still running. -/
theorem unlimitedRunEndsOnlyByFault : Obligations.UnlimitedRunEndsOnlyByFault := by
  unfold Obligations.UnlimitedRunEndsOnlyByFault
  intro k s
  induction k generalizing s with
  | zero =>
    have hforever : runForever 0 s = .running .unlimited s := rfl
    have hlimited : runWithGas 0 s = .stopped s := rfl
    rw [hforever, hlimited]
    simp
  | succ k ih =>
    obtain ⟨u, h⟩ | ⟨f, h⟩ := step_next_or_fault s
    · rw [runForever_succ_of_next k h, runWithGas_succ_of_next k h]
      exact ih u
    · rw [runForever_succ_of_fault k h, runWithGas_succ_of_fault k h]
      simp

/-- Settles O56, by induction on the gas: the step changes nothing but the cost returned, so the same jump is next. -/
theorem jumpToItselfIsTheEndOfRunIdiom : Obligations.JumpToItselfIsTheEndOfRunIdiom := by
  unfold Obligations.JumpToItselfIsTheEndOfRunIdiom
  intro s n hop hlo hhi
  induction n generalizing s with
  | zero => exact runWithGas_succ_of_next 0 (step_jp hop hlo hhi)
  | succ n ih => exact (runWithGas_succ_of_next (n + 1) (step_jp hop hlo hhi)).trans (ih { s with cycles := 4 } hop hlo hhi)

end Sys2Proof.Machine
end

section
/-! PROOF. The rules the statements about the header parser rest on: the checksum's closed form, the first 80 bytes, and the
parser's answer by its first failure. -/

namespace Sys2Proof.Machine

/-! ## The checksum (R247) -/

/-- What the checksum's fold takes away: every byte and one more for each. -/
theorem foldl_checksum_toNat (bytes : List Byte) (acc : Byte) :
    ((bytes.foldl (fun acc v => acc - v - 1) acc).toNat + (bytes.map BitVec.toNat).sum + bytes.length) % 256 =
      acc.toNat := by
  induction bytes generalizing acc with
  | nil => exact Nat.mod_eq_of_lt acc.isLt
  | cons v bytes ih =>
    have hstep : ((acc - v - 1).toNat + v.toNat + 1) % 256 = acc.toNat := by
      have h1 : (1 : Byte).toNat = 1 := rfl
      have hacc := acc.isLt
      have hv := v.isLt
      rw [BitVec.toNat_sub, BitVec.toNat_sub, h1]
      omega
    have hrest := ih (acc - v - 1)
    rw [List.foldl_cons, List.map_cons, List.sum_cons, List.length_cons]
    omega

theorem length_headerField {input : List Byte} {offset size : Nat} (h : offset - 0x100 + size ≤ input.length) :
    (headerField input offset size).length = size := by
  rw [headerField, List.length_take, List.length_drop]
  omega

/-! ## The size codes (R244, R245) -/

theorem parseRomBanks_of_le {code : Byte} (h : code.toNat ≤ 8) : parseRomBanks code = some (2 <<< code.toNat) :=
  if_pos h

theorem parseRomBanks_of_gt {code : Byte} (h : 8 < code.toNat) : parseRomBanks code = none :=
  if_neg (Nat.not_le.mpr h)

/-! ## The first 80 bytes (D18) -/

theorem headerByte_take {input : List Byte} {offset : Nat} (h : offset < 0x150) :
    headerByte (input.take 80) offset = headerByte input offset := by
  have hlt : offset - 0x100 < 80 := by omega
  simp only [headerByte, List.getD_eq_getElem?_getD, List.getElem?_take_of_lt hlt]

theorem headerField_take {input : List Byte} {offset size : Nat} (h : offset - 0x100 + size ≤ 80) :
    headerField (input.take 80) offset size = headerField input offset size := by
  have hle : size ≤ 80 - (offset - 0x100) := by omega
  rw [headerField, headerField, List.drop_take, List.take_take, min_eq_left hle]

theorem headerChecksum_take (input : List Byte) : headerChecksum (input.take 80) = headerChecksum input := by
  rw [headerChecksum, headerField_take (by decide), headerChecksum]

theorem validateHeader_take (p : HeaderParams) (input : List Byte) :
    validateHeader p (input.take 80) = validateHeader p input := by
  simp only [validateHeader, checkHeaderChecksum, globalChecksum, headerChecksum_take,
    headerField_take (show 0x104 - 0x100 + 48 ≤ 80 by decide), headerByte_take (show 0x14D < 0x150 by decide),
    headerByte_take (show 0x14E < 0x150 by decide), headerByte_take (show 0x14F < 0x150 by decide)]

theorem parseHeader_take (p : HeaderParams) {input : List Byte} (h : 80 ≤ input.length) :
    parseHeader p (input.take 80) = parseHeader p input := by
  have hlen : (input.take 80).length = 80 := by rw [List.length_take, min_eq_left h]
  have hlong : ¬input.length < headerLength := Nat.not_lt.mpr h
  have hlong' : ¬(input.take 80).length < headerLength := Nat.not_lt.mpr hlen.ge
  simp only [parseHeader, if_neg hlong, if_neg hlong', validateHeader_take,
    headerField_take (show 0x134 - 0x100 + 16 ≤ 80 by decide), headerByte_take (show 0x147 < 0x150 by decide),
    headerByte_take (show 0x148 < 0x150 by decide), headerByte_take (show 0x149 < 0x150 by decide),
    headerByte_take (show 0x14C < 0x150 by decide)]

/-! ## The parser's answer, failure by failure (R251, D20) -/

section parse
variable (p : HeaderParams) {input : List Byte}

theorem parseHeader_of_short (h : input.length < headerLength) :
    parseHeader p input = .failed (.tooShort headerLength input.length) := if_pos h

variable {text : List Char} {ty : CartridgeType} {rom ram : Nat} (hlen : headerLength ≤ input.length)
include hlen

theorem parseHeader_of_badTitle (htext : p.decodeTitle (headerField input 0x134 16) = none) :
    parseHeader p input = .failed .badTitle := by
  simp only [parseHeader, if_neg (Nat.not_lt.mpr hlen), htext]

variable (htext : p.decodeTitle (headerField input 0x134 16) = some text)
include htext

theorem parseHeader_of_unknownType (hty : p.cartType (headerByte input 0x147) = none) :
    parseHeader p input = .failed (.unknownCartridgeType (headerByte input 0x147)) := by
  simp only [parseHeader, if_neg (Nat.not_lt.mpr hlen), htext, hty]

variable (hty : p.cartType (headerByte input 0x147) = some ty)
include hty

theorem parseHeader_of_badRomSize (hrom : parseRomBanks (headerByte input 0x148) = none) :
    parseHeader p input = .failed (.badRomSize (headerByte input 0x148)) := by
  simp only [parseHeader, if_neg (Nat.not_lt.mpr hlen), htext, hty, hrom]

variable (hrom : parseRomBanks (headerByte input 0x148) = some rom)
include hrom

theorem parseHeader_of_badRamSize (hram : parseRamBanks (headerByte input 0x149) = none) :
    parseHeader p input = .failed (.badRamSize (headerByte input 0x149)) := by
  simp only [parseHeader, if_neg (Nat.not_lt.mpr hlen), htext, hty, hrom, hram]

theorem parseHeader_of_valid (hram : parseRamBanks (headerByte input 0x149) = some ram) :
    parseHeader p input = .parsed
      { title := trimEnd p.isTrimmed text, cartridgeType := ty, romBanks := rom, ramBanks := ram,
        version := headerByte input 0x14C, validation := validateHeader p input } := by
  simp only [parseHeader, if_neg (Nat.not_lt.mpr hlen), htext, hty, hrom, hram]

end parse

/-- A parsed header has legal size codes. -/
theorem sizes_of_parseHeader_parsed {p : HeaderParams} {input : List Byte} {h : Header}
    (hparsed : parseHeader p input = .parsed h) :
    parseRomBanks (headerByte input 0x148) ≠ none ∧ parseRamBanks (headerByte input 0x149) ≠ none := by
  have hlen : headerLength ≤ input.length := by
    by_contra hshort
    cases (parseHeader_of_short p (Nat.lt_of_not_le hshort)).symm.trans hparsed
  rcases htext : p.decodeTitle (headerField input 0x134 16) with _ | text
  · cases (parseHeader_of_badTitle p hlen htext).symm.trans hparsed
  rcases hty : p.cartType (headerByte input 0x147) with _ | ty
  · cases (parseHeader_of_unknownType p hlen htext hty).symm.trans hparsed
  rcases hrom : parseRomBanks (headerByte input 0x148) with _ | rom
  · cases (parseHeader_of_badRomSize p hlen htext hty hrom).symm.trans hparsed
  rcases hram : parseRamBanks (headerByte input 0x149) with _ | ram
  · cases (parseHeader_of_badRamSize p hlen htext hty hrom hram).symm.trans hparsed
  exact ⟨nofun, nofun⟩

/-! ## The advisory record (R247, R248) -/

theorem checkHeaderChecksum_eq_ok_iff (input : List Byte) :
    checkHeaderChecksum input = .ok (headerByte input 0x14D) ↔ headerChecksum input = headerByte input 0x14D := by
  unfold checkHeaderChecksum
  split <;> simp [*]

theorem checkHeaderChecksum_of_ne {input : List Byte} (h : headerChecksum input ≠ headerByte input 0x14D) :
    checkHeaderChecksum input = .mismatch (headerChecksum input) (headerByte input 0x14D) := if_neg h

/-- The global checksum is the compound view of its two bytes (R12). -/
theorem globalChecksum_toNat (input : List Byte) :
    (globalChecksum input).toNat = (headerByte input 0x14E).toNat * 256 + (headerByte input 0x14F).toNat :=
  compound_toNat (headerByte input 0x14E) (headerByte input 0x14F)

end Sys2Proof.Machine
end

section
/-! PROOF. The statements about the header parser (spec/70_reset_and_hazards.md section 4). -/

namespace Sys2Proof.Machine

/-- Settles O57: the fold takes the sum and the count away from 0, and the 25 bytes lie within the header. -/
theorem headerChecksumClosedForm : Obligations.HeaderChecksumClosedForm := by
  unfold Obligations.HeaderChecksumClosedForm
  intro input hlen
  have hlong : 80 ≤ input.length := hlen
  have hfield : (headerField input 0x134 25).length = 25 := length_headerField (by omega)
  have hfold := foldl_checksum_toNat (headerField input 0x134 25) 0
  rw [hfield] at hfold
  exact ⟨hfold, hfield⟩

/-- Settles O58: the parser's one success, its fields read off; logo and checksums stand in no test. -/
theorem headerAdvisoryFieldsNeverBlock : Obligations.HeaderAdvisoryFieldsNeverBlock := by
  unfold Obligations.HeaderAdvisoryFieldsNeverBlock
  intro p input text ty rom ram hlen htext hty hrom hram
  exact ⟨_, parseHeader_of_valid p hlen htext hty hrom hram, rfl, rfl, rfl, rfl, rfl, decide_eq_true_iff,
    checkHeaderChecksum_eq_ok_iff input, checkHeaderChecksum_of_ne, globalChecksum_toNat input⟩

/-- Settles O59: the ROM code by its bound, the RAM code by its table, and a parsed header has legal codes. -/
theorem headerSizeCodes : Obligations.HeaderSizeCodes := by
  unfold Obligations.HeaderSizeCodes
  refine ⟨fun code => ⟨parseRomBanks_of_le, parseRomBanks_of_gt⟩, fun code => by revert code; decide,
    fun p input hcodes h hparsed => ?_⟩
  obtain ⟨hrom, hram⟩ := sizes_of_parseHeader_parsed hparsed
  exact hcodes.elim hrom hram

/-- Settles O60: the parser's failures one by one, and every byte it looks at is one of the first 80. -/
theorem headerErrorsInOrder : Obligations.HeaderErrorsInOrder := by
  unfold Obligations.HeaderErrorsInOrder
  refine fun p input => ⟨parseHeader_of_short p, fun hlen => ⟨(parseHeader_take p hlen).symm,
    parseHeader_of_badTitle p hlen, fun text htext => ⟨parseHeader_of_unknownType p hlen htext, fun ty hty =>
      ⟨parseHeader_of_badRomSize p hlen htext hty, fun rom hrom => ?_⟩⟩⟩⟩
  exact parseHeader_of_badRamSize p hlen htext hty hrom

end Sys2Proof.Machine
end

section
/-! PROOF. The rules the statements about construction and the ROM array rest on: the cells of an image, and a ROM read by its
bank. -/

namespace Sys2Proof.Machine

/-! ## The cells of an image (R232, R238) -/

/-- The image's listing holds nothing below the index of its first byte. -/
theorem read_cellsOfBytes_of_lt {i j : Nat} (h : j < i) (image : List Byte) :
    Memory.read (cellsOfBytes i image) j = none := by
  induction image generalizing i with
  | nil => rfl
  | cons v image ih =>
    have hrest := ih (Nat.lt_succ_of_lt h)
    rw [cellsOfBytes]
    split
    · exact hrest
    · rw [Memory.read_cons, if_neg (Nat.ne_of_gt h), hrest]

/-- Each image byte is read at its index, whether it is listed or is the byte an unlisted index holds. -/
theorem read_cellsOfBytes (i k : Nat) (image : List Byte) (h : k < image.length) :
    (Memory.read (cellsOfBytes i image) (i + k)).getD (romUnlisted.getD 0) = image[k] := by
  induction image generalizing i k with
  | nil => cases h
  | cons v image ih =>
    rw [cellsOfBytes]
    cases k with
    | zero =>
      rw [add_zero, List.getElem_cons_zero]
      split
      · next hv =>
        rw [read_cellsOfBytes_of_lt (Nat.lt_succ_self i), hv]
        rfl
      · rw [Memory.read_cons, if_pos rfl, Option.getD_some]
    | succ k =>
      have hshift : i + (k + 1) = i + 1 + k := by omega
      have hrest := ih (i + 1) k (Nat.lt_of_succ_lt_succ h)
      rw [List.getElem_cons_succ, hshift]
      split
      · exact hrest
      · rw [Memory.read_cons, if_neg (by omega), hrest]

theorem byte_ofBytes (oob : RomOobPolicy) (image : List Byte) (i : Nat) (h : i < image.length) :
    (Cartridge.ofBytes oob image).byte i = image[i] := by
  have hread := read_cellsOfBytes 0 i image h
  rwa [Nat.zero_add] at hread

/-- The listing of an image is canonical. -/
theorem wfFrom_cellsOfBytes {size i : Nat} {image : List Byte} (h : i + image.length ≤ size) :
    Memory.wfFrom size romUnlisted i (cellsOfBytes i image) = true := by
  induction image generalizing i with
  | nil => rfl
  | cons v image ih =>
    rw [List.length_cons] at h
    have hrest := ih (i := i + 1) (by omega)
    rw [cellsOfBytes]
    split
    · exact Memory.wfFrom_mono (Nat.le_succ i) hrest
    · next hv =>
      have hi : i < size := by omega
      simp [Memory.wfFrom, hrest, hi, hv]

theorem construct_legal (aReset : Byte) (oob : RomOobPolicy) (image : List Byte) :
    (State.construct aReset oob image).Legal :=
  ⟨⟨rfl, wfFrom_cellsOfBytes (Nat.zero_add image.length).le⟩, (by decide : (1 : BitVec 5) ≠ 0), Nat.zero_le 4⟩

theorem reset_eq_construct : State.reset = State.construct Config.aReset Config.romOobPolicy [] := rfl

/-! ## A ROM read by its bank (R53, R55, R56) -/

section romRead
variable {s : State} {addr : Addr} {bank : BitVec 7}

variable (hc : InCart addr) (hbank : activeRomBank s.mbc1 addr = .ok bank)
include hc hbank

theorem busRead_within_image (h : (physIndex bank addr).toNat < s.cart.len) :
    busRead s addr = .ok (s.cart.byte (physIndex bank addr).toNat) := by
  rw [busRead_of_inCart hc]
  simp only [romRead, hbank, if_pos h]

theorem busRead_beyond_image (h : s.cart.len ≤ (physIndex bank addr).toNat) :
    busRead s addr = romOob s.cart addr bank (physIndex bank addr) := by
  rw [busRead_of_inCart hc]
  simp only [romRead, hbank, if_neg (Nat.not_lt.mpr h)]

end romRead

/-- At reset each window shows the bank of its own number, so the index is the address (decision D4). -/
theorem physIndex_at_reset {addr : Addr} (h : InCart addr) :
    ∃ bank, activeRomBank State.reset.mbc1 addr = .ok bank ∧ (physIndex bank addr).toNat = addr.toNat := by
  by_cases hlow : addr.toNat ≤ 0x3FFF
  · obtain ⟨bank, hok, hnum⟩ := activeRomBank_bank0_window State.reset.mbc1 hlow
    have hbank : bank.toNat = 0 := hnum
    refine ⟨bank, hok, ?_⟩
    rw [physIndex_toNat]
    omega
  · obtain ⟨bank, hok, hnum⟩ := activeRomBank_switchable_window State.reset.mbc1 (Nat.lt_of_not_le hlow) h
    have hbank : bank.toNat = 1 := hnum
    refine ⟨bank, hok, ?_⟩
    rw [physIndex_toNat]
    omega

end Sys2Proof.Machine
end

section
/-! PROOF. The statements about reset, construction, the registers and the ROM array. -/

namespace Sys2Proof.Machine

/-- Settles O1: construction sets each field, and the three views are compounds of zeros. -/
theorem resetRegistersAndPc : Obligations.ResetRegistersAndPc := by
  unfold Obligations.ResetRegistersAndPc
  exact ⟨fun _ _ _ => ⟨rfl, rfl, rfl, rfl, rfl, rfl, rfl, rfl, rfl, rfl, rfl⟩, reset_eq_construct⟩

/-- Settles O2: the image's listing holds each byte at its index, by induction on the image; no byte of work RAM is
listed. -/
theorem constructedSystemHoldsItsArguments : Obligations.ConstructedSystemHoldsItsArguments := by
  unfold Obligations.ConstructedSystemHoldsItsArguments
  exact fun aReset oob image => ⟨rfl, rfl, rfl, byte_ofBytes oob image, fun i => rfl⟩

/-- Settles O3: bank 0 in the first window and bank 1 in the second. -/
theorem resetBankingShowsImageOneToOne : Obligations.ResetBankingShowsImageOneToOne := by
  unfold Obligations.ResetBankingShowsImageOneToOne
  exact ⟨rfl, fun addr => physIndex_at_reset⟩

/-- Settles O4: the rules of a register write, field by field. -/
theorem registersAreIndependentStorage : Obligations.RegistersAreIndependentStorage := by
  unfold Obligations.RegistersAreIndependentStorage
  exact fun s r r' v => ⟨s.reg_setReg_same r v, s.reg_setReg_of_ne v, s.setReg_f r v, s.setReg_pc r v, s.setReg_mbc1 r v,
    s.setReg_wram r v, s.setReg_cart r v⟩

/-- Settles O44: reset is a construction, with the empty image. -/
theorem resetIsLegal : Obligations.ResetIsLegal := by
  unfold Obligations.ResetIsLegal
  rw [reset_eq_construct]
  exact construct_legal Config.aReset Config.romOobPolicy []

/-- Settles O45: the image's listing is canonical, by induction on the image. -/
theorem constructedSystemsAreLegal : Obligations.ConstructedSystemsAreLegal := by
  unfold Obligations.ConstructedSystemsAreLegal
  exact construct_legal

/-- Settles O30: the index as a number, and the read of an index within the image. -/
theorem romReadPath : Obligations.RomReadPath := by
  unfold Obligations.RomReadPath
  intro s addr hc
  obtain ⟨bank, hbank⟩ := activeRomBank_of_inCart s.mbc1 hc
  refine ⟨bank, hbank, physIndex_toNat bank addr, (physIndex bank addr).isLt, ?_⟩
  rw [← physIndex_toNat]
  exact busRead_within_image hc hbank

/-- Settles O31: a read beyond the image is the policy's, case by case. -/
theorem romBeyondImageFollowsThePolicy : Obligations.RomBeyondImageFollowsThePolicy := by
  unfold Obligations.RomBeyondImageFollowsThePolicy
  intro s addr bank hc hbank hlen
  rw [busRead_beyond_image hc hbank hlen, romOob, ← physIndex_toNat]
  refine ⟨fun h => ?_, fun h hne => ?_, fun h hzero => ?_, fun h => ?_⟩
  · simp only [h]
  · simp only [h, if_neg hne]
  · simp only [h, if_pos hzero]
  · simp only [h]
    exact ⟨_, rfl⟩

end Sys2Proof.Machine
end
